-- ==== Sys2Proof/Word.lean ====
section
/-! DEFINITION. The word types of the machine (00_scope.md R8, 30_encoding.md R81). -/

namespace Sys2Proof

/-- A byte: a `V` register, a timer, a memory cell, the immediate `NN` (R8, R81). -/
abbrev Byte := BitVec 8

/-- A 16-bit word: an instruction word, `pc`, `I`, a stack entry (R8). -/
abbrev Word := BitVec 16

/-- A 4-bit field of an instruction word: the immediate `N` (R81). -/
abbrev Nibble := BitVec 4

/-- The 12-bit address immediate `NNN` (R81). -/
abbrev Addr12 := BitVec 12

/-- The 4-bit index of one of the sixteen registers (R20, R83). -/
abbrev Reg := BitVec 4

/-- `VF`, that is `V[15]`, the one flag register (R21). -/
abbrev VF : Reg := 0xF#4

/-- `zext_16` of an address immediate (R83). -/
def zext16 (nnn : Addr12) : Word := nnn.setWidth 16

end Sys2Proof
end

