-- ==== Sys2Proof/Config.lean ====
section
/-! DEFINITION. The sizes the source fixes (00_scope.md R8), the type of the parameter `STACK_DEPTH`, and the one
free value of the machine, the random byte source (R9). The defaults of the open parameters stand in
Machine/Parameters.lean. -/

namespace Sys2Proof.Config

/-- `MEM_SIZE`: 4096 bytes, addresses 0x000 to 0xFFF (R8). -/
def memSize : Nat := 4096

/-- `FONT_REGION`: the first 512 addresses, 0x000 to 0x1FF (R8). -/
def fontRegion : Nat := 512

/-- `ROM_BASE` and `PC_RESET`: 0x200 (R8). -/
def romBase : Nat := 512

/-- The longest ROM that fits, 4096 - 0x200 bytes (60_exceptions.md R244). -/
def romLimit : Nat := 3584

/-- `DISP_W` (R8). -/
def dispW : Nat := 64

/-- `DISP_H` (R8). -/
def dispH : Nat := 32

/-- `GLYPH_BYTES` (R8). -/
def glyphBytes : Nat := 5

/-- The type of the parameter `STACK_DEPTH`: a positive number of entries, or unbounded (R9, 10_state.md R30). The
value is an argument of the machine, carried in its state (log 3). -/
inductive StackDepth
  /-- A finite stack of so many entries, at least one. -/
  | bounded (entries : Nat) (positive : 0 < entries)
  /-- A stack that is never full. -/
  | unbounded
  deriving DecidableEq, Repr

/-- FREE VALUE. The parameter `RngNext(rng) -> (byte, rng')` (R9, 10_state.md R34): an opaque constant, since the
spec gives no algorithm and says that nothing may be assumed of the byte (log 2). -/
opaque rngNext : Nat → Byte × Nat

end Sys2Proof.Config
end

