-- ==== Sys2Proof/Machine/Parameters.lean ====
section
/-! DEFINITION. The defaults of the open parameters of 00_scope.md R9, which State.reset takes. The parameters
themselves are arguments: of State.resetWith, and `STACK_DEPTH` also a field of every state. -/

namespace Sys2Proof.Machine

open Sys2Proof

/-- The default of `STACK_DEPTH`: 16 entries (R9, D6; the spec took it from general knowledge, log 3). -/
def Parameters.defaultStackDepth : Config.StackDepth := .bounded 16 (by decide)

/-- The glyphs 0 to 7 of the default font (20_memory.md R57; log 4). -/
def Parameters.glyphs0to7 : List Byte :=
  [0xF0, 0x90, 0x90, 0x90, 0xF0] ++ [0x20, 0x60, 0x20, 0x20, 0x70] ++
  [0xF0, 0x10, 0xF0, 0x80, 0xF0] ++ [0xF0, 0x10, 0xF0, 0x10, 0xF0] ++
  [0x90, 0x90, 0xF0, 0x10, 0x10] ++ [0xF0, 0x80, 0xF0, 0x10, 0xF0] ++
  [0xF0, 0x80, 0xF0, 0x90, 0xF0] ++ [0xF0, 0x10, 0x20, 0x40, 0x40]

/-- The glyphs 8 to F of the default font (R57; log 4). -/
def Parameters.glyphs8toF : List Byte :=
  [0xF0, 0x90, 0xF0, 0x90, 0xF0] ++ [0xF0, 0x90, 0xF0, 0x10, 0xF0] ++
  [0xF0, 0x90, 0xF0, 0x90, 0x90] ++ [0xE0, 0x90, 0xE0, 0x90, 0xE0] ++
  [0xF0, 0x80, 0x80, 0x80, 0xF0] ++ [0xE0, 0x90, 0x90, 0x90, 0xE0] ++
  [0xF0, 0x80, 0xF0, 0x80, 0xF0] ++ [0xF0, 0x80, 0xF0, 0x80, 0x80]

/-- `FONT_TABLE`: the default of R57, 80 bytes of glyphs and zeros up to 512 bytes. -/
def Parameters.fontTable : List Byte :=
  Parameters.glyphs0to7 ++ Parameters.glyphs8toF ++ List.replicate 432 0x00#8

end Sys2Proof.Machine
end

