-- ==== Sys2Proof/Syntax.lean ====
section
/-! DEFINITION. The instructions: one constructor per row of the opcode map (30_encoding.md R88), in its order,
with the fields of its format (R82). `SHR` and `SHL` keep the field `Y`, which their word holds and their
operation ignores (R94), so that a word and its instruction carry the same bits (log 14). -/

namespace Sys2Proof

/-- The 35 instructions of R88. -/
inductive Instr
  /-- `00E0` CLS (R200) -/
  | cls
  /-- `00EE` RET (R131) -/
  | ret
  /-- `0NNN` SYS NNN (R130) -/
  | sys (nnn : Addr12)
  /-- `1NNN` JP NNN (R132) -/
  | jp (nnn : Addr12)
  /-- `2NNN` CALL NNN (R133) -/
  | call (nnn : Addr12)
  /-- `3XNN` SE Vx, NN (R135) -/
  | seImm (x : Reg) (nn : Byte)
  /-- `4XNN` SNE Vx, NN (R136) -/
  | sneImm (x : Reg) (nn : Byte)
  /-- `5XY0` SE Vx, Vy (R137) -/
  | seReg (x y : Reg)
  /-- `6XNN` LD Vx, NN (R150) -/
  | ldImm (x : Reg) (nn : Byte)
  /-- `7XNN` ADD Vx, NN (R151) -/
  | addImm (x : Reg) (nn : Byte)
  /-- `8XY0` LD Vx, Vy (R152) -/
  | ldReg (x y : Reg)
  /-- `8XY1` OR Vx, Vy (R153) -/
  | orReg (x y : Reg)
  /-- `8XY2` AND Vx, Vy (R154) -/
  | andReg (x y : Reg)
  /-- `8XY3` XOR Vx, Vy (R155) -/
  | xorReg (x y : Reg)
  /-- `8XY4` ADD Vx, Vy (R156) -/
  | addReg (x y : Reg)
  /-- `8XY5` SUB Vx, Vy (R157) -/
  | sub (x y : Reg)
  /-- `8XY6` SHR Vx (R158) -/
  | shr (x y : Reg)
  /-- `8XY7` SUBN Vx, Vy (R159) -/
  | subn (x y : Reg)
  /-- `8XYE` SHL Vx (R160) -/
  | shl (x y : Reg)
  /-- `9XY0` SNE Vx, Vy (R138) -/
  | sneReg (x y : Reg)
  /-- `ANNN` LD I, NNN (R180) -/
  | ldI (nnn : Addr12)
  /-- `BNNN` JP V0, NNN (R134) -/
  | jpV0 (nnn : Addr12)
  /-- `CXNN` RND Vx, NN (R161) -/
  | rnd (x : Reg) (nn : Byte)
  /-- `DXYN` DRW Vx, Vy, N (R203) -/
  | drw (x y : Reg) (n : Nibble)
  /-- `EX9E` SKP Vx (R207) -/
  | skp (x : Reg)
  /-- `EXA1` SKNP Vx (R208) -/
  | sknp (x : Reg)
  /-- `FX07` LD Vx, DT (R187) -/
  | ldVxDt (x : Reg)
  /-- `FX0A` LD Vx, K (R139) -/
  | ldVxK (x : Reg)
  /-- `FX15` LD DT, Vx (R189) -/
  | ldDtVx (x : Reg)
  /-- `FX18` LD ST, Vx (R190) -/
  | ldStVx (x : Reg)
  /-- `FX1E` ADD I, Vx (R181) -/
  | addIVx (x : Reg)
  /-- `FX29` LD F, Vx (R182) -/
  | ldFVx (x : Reg)
  /-- `FX33` LD B, Vx (R183) -/
  | ldBVx (x : Reg)
  /-- `FX55` LD [I], Vx (R184) -/
  | storeRegs (x : Reg)
  /-- `FX65` LD Vx, [I] (R185) -/
  | loadRegs (x : Reg)
  deriving DecidableEq, Repr

end Sys2Proof
end

