-- ==== Sys2Proof/Machine/State.lean ====
section
/-! DEFINITION. The state of the machine (10_state.md), its faults and the state after reset (R43). -/

namespace Sys2Proof.Machine

open Sys2Proof

/-- Main memory: (address, byte) pairs, addresses strictly rising and below 4096, no pair equal to what an
unlisted address reads as (20_memory.md R50). The form is `Memory.wf`; the operations are in Machine/Memory.lean. -/
abbrev Memory := List Host.Cell

/-- `disp[x][y]`: 64 columns of 32 pixels, `true` where the pixel is set (R35). -/
abbrev Display := Vector (Vector Bool 32) 64

/-- The conditions a tick can be ended by (60_exceptions.md R221). -/
inductive FaultCode
  /-- Code 1: the fetched word is no instruction (R223). -/
  | unknownOpcode
  /-- Code 2: an access to an address of 4096 or more (R224). -/
  | memoryRange
  /-- Code 3: `CALL` on a full stack (R225). -/
  | stackOverflow
  deriving DecidableEq, Repr

/-- The record `(code, word, addr)` of a fault (R221; its form is DESIGN CHOICE, log 11). -/
structure FaultRecord where
  /-- Which condition. -/
  code : FaultCode
  /-- The instruction word, 0 on a fetch fault. -/
  word : Word
  /-- The word's address, the first address out of range, or the return address that could not be pushed. -/
  addr : Nat
  deriving DecidableEq, Repr

/-- The outcome a tick reports to the driver (40_cycle.md R114): `Ok`, or a fault with its three values. -/
inductive TickReport
  /-- `Ok`. -/
  | ok
  /-- The tick was ended by this fault. -/
  | fault (r : FaultRecord)
  deriving DecidableEq, Repr

/-- Everything the machine holds between two ticks (head of 10_state.md), the parameter `STACK_DEPTH` of the step
(R44), and the model's own field `report`. -/
structure State where
  /-- `V[0]`..`V[15]` (R20). -/
  v : Vector Byte 16
  /-- `I`, all 16 bits (R23). -/
  i : Word
  /-- `pc` (R24). -/
  pc : Word
  /-- The call stack, top last (R30, R31). -/
  stack : List Word
  /-- `DT` (R32). -/
  dt : Byte
  /-- `ST` (R32). -/
  st : Byte
  /-- `rng`, the opaque state of the random byte source (R34; held as a number, log 2). -/
  rng : Nat
  /-- `mem` (R50). -/
  mem : Memory
  /-- `disp` (R35). -/
  disp : Display
  /-- `key[0]`..`key[15]`, `true` where the key is held (R38). -/
  key : Vector Bool 16
  /-- `FAULT`, the first fault since reset (R40). -/
  fault : Option FaultRecord
  /-- The parameter `STACK_DEPTH` (00_scope.md R9), an argument of the machine and no state of it (R44): carried here
  because the step has no other argument, and changed by no move (DESIGN CHOICE, log 3). -/
  stackDepth : Config.StackDepth
  /-- DESIGN CHOICE, the model's own field: what the last tick reported to the driver (R114). No instruction reads
  it (log 8). -/
  report : TickReport
  deriving DecidableEq, Repr

/-- Why there is no next state. No tick answers one: the machine's own faults are next states with `FAULT`
written (R222, R118; log 7). -/
inductive Fault
  /-- `LoadFailure`: raised by the driver's move Reset alone, when the ROM or the font table cannot be supplied in
  full or the ROM does not fit; no machine exists then (R244). Safe: there is no state to claim anything of. -/
  | loadFailure
  deriving DecidableEq, Repr

/-- Why an instruction has no meaning here. -/
inductive Refusal
  /-- The instruction of this mnemonic is not modelled. Raised by the refused arms of `exec`, of which there is
  none left. Safe: the run stops. -/
  | notModelled (mnemonic : String)
  deriving DecidableEq, Repr

/-- The state after reset (R43) with the default `STACK_DEPTH`, the default font table and the empty ROM (R261): `pc` at 0x200, memory with
nothing listed. The values of `v`, `i`, `stack`, `dt`, `st`, `disp` and `key` are the spec's own choice (D13;
DESIGN CHOICE, log 1); `rng` is DESIGN CHOICE 0 (log 2). -/
def State.reset : State where
  v := Vector.replicate 16 0x00#8
  i := 0x0000#16
  pc := 0x0200#16
  stack := []
  dt := 0x00#8
  st := 0x00#8
  rng := 0
  mem := []
  disp := Vector.replicate 64 (Vector.replicate 32 false)
  key := Vector.replicate 16 false
  fault := none
  stackDepth := Parameters.defaultStackDepth
  report := .ok

end Sys2Proof.Machine
end

