-- ==== Sys2Proof/Machine/Flags.lean ====
section
/-! DEFINITION. The flag computations (42_alu.md R146): each from the operand values, before any write. -/

namespace Sys2Proof.Machine

open Sys2Proof

/-- A flag as the byte `VF` receives: 0 or 1, never another value (10_state.md R21). -/
def flagByte (flag : Bool) : Byte := if flag then 0x01#8 else 0x00#8

/-- Carry: the unbounded sum exceeds 255 (R146, R156). -/
def carryFlag (a b : Byte) : Bool := decide (255 < a.toNat + b.toNat)

/-- Inverted borrow: minuend at least the subtrahend (R146, R157, R159). -/
def noBorrowFlag (minuend subtrahend : Byte) : Bool := decide (subtrahend.toNat ≤ minuend.toNat)

/-- The low bit a right shift removes (R158). -/
def lowBitFlag (a : Byte) : Bool := a.getLsbD 0

/-- The high bit a left shift removes (R160). -/
def highBitFlag (a : Byte) : Bool := a.getLsbD 7

end Sys2Proof.Machine
end

