-- ==== Sys2Proof/WellFormed.lean ====
section
/-! DEFINITION. Which terms of `Instr` are instructions the decoder can answer. Every field is as wide as its
place in the word, so one check is left: the words `00E0` and `00EE` are `CLS` and `RET`, never `SYS`
(30_encoding.md R85). -/

namespace Sys2Proof

/-- `SYS NNN` stands for every word `0NNN` but `00E0` and `00EE` (R85). -/
def sysFieldOk (nnn : Addr12) : Bool := nnn != 0x0E0#12 && nnn != 0x0EE#12

/-- The instruction is one that some word decodes to. -/
def Instr.wellFormed : Instr → Bool
  | .sys nnn => sysFieldOk nnn
  | .cls | .ret | .jp _ | .call _ | .seImm _ _ | .sneImm _ _ | .seReg _ _ | .ldImm _ _ | .addImm _ _
  | .ldReg _ _ | .orReg _ _ | .andReg _ _ | .xorReg _ _ | .addReg _ _ | .sub _ _ | .shr _ _ | .subn _ _
  | .shl _ _ | .sneReg _ _ | .ldI _ | .jpV0 _ | .rnd _ _ | .drw _ _ _ | .skp _ | .sknp _ | .ldVxDt _
  | .ldVxK _ | .ldDtVx _ | .ldStVx _ | .addIVx _ | .ldFVx _ | .ldBVx _ | .storeRegs _ | .loadRegs _ => true

end Sys2Proof
end

