-- ==== Sys2Proof/Decode.lean ====
section
/-! DEFINITION. Instruction words: byte order, fields, the decoder, the encoder, and the opcode map of
30_encoding.md R88 as a table of masks. -/

namespace Sys2Proof

/-! ### Bytes and words -/

/-- The 16-bit word of two fetched bytes: the byte at the lower address is bits 15..8 (20_memory.md R58; the byte
order is PRESUMED by the spec itself, decision D1, log 12). -/
def wordOfBytes (first second : Byte) : Word := first ++ second

/-- Bits 15..8, the first byte `HI` of a word (R81). -/
def hiByte (w : Word) : Byte := w.extractLsb' 8 8

/-- Bits 7..0, the second byte `LO` of a word; the same bits as `NN` (R81). -/
def loByte (w : Word) : Byte := w.extractLsb' 0 8

/-! ### The fields of R81 -/

/-- `OP`, bits 15..12: the leading nibble, which selects the family. -/
def opField (w : Word) : Nibble := w.extractLsb' 12 4

/-- `X`, bits 11..8. -/
def xField (w : Word) : Reg := w.extractLsb' 8 4

/-- `Y`, bits 7..4. -/
def yField (w : Word) : Reg := w.extractLsb' 4 4

/-- `N`, bits 3..0. -/
def nField (w : Word) : Nibble := w.extractLsb' 0 4

/-- `NN`, bits 7..0. -/
def nnField (w : Word) : Byte := w.extractLsb' 0 8

/-- `NNN`, bits 11..0. -/
def nnnField (w : Word) : Addr12 := w.extractLsb' 0 12

/-! ### The decoder -/

/-- What the decoder answers for a word: an instruction, or the failure that names the word (R84). -/
inductive Decoded
  /-- The word is this instruction. -/
  | instr (i : Instr)
  /-- The word matches no row of R88: the "unknown opcode" condition carrying the raw word (R93). -/
  | unknownOpcode (w : Word)
  deriving DecidableEq, Repr

/-- Family 8 selects by its trailing nibble (R86). -/
def decodeFamily8 (w : Word) : Decoded :=
  if nField w = 0x0#4 then .instr (.ldReg (xField w) (yField w))
  else if nField w = 0x1#4 then .instr (.orReg (xField w) (yField w))
  else if nField w = 0x2#4 then .instr (.andReg (xField w) (yField w))
  else if nField w = 0x3#4 then .instr (.xorReg (xField w) (yField w))
  else if nField w = 0x4#4 then .instr (.addReg (xField w) (yField w))
  else if nField w = 0x5#4 then .instr (.sub (xField w) (yField w))
  else if nField w = 0x6#4 then .instr (.shr (xField w) (yField w))
  else if nField w = 0x7#4 then .instr (.subn (xField w) (yField w))
  else if nField w = 0xE#4 then .instr (.shl (xField w) (yField w))
  else .unknownOpcode w

/-- Family E selects by its trailing byte (R87). -/
def decodeFamilyE (w : Word) : Decoded :=
  if loByte w = 0x9E#8 then .instr (.skp (xField w))
  else if loByte w = 0xA1#8 then .instr (.sknp (xField w))
  else .unknownOpcode w

/-- Family F selects by its trailing byte (R87). -/
def decodeFamilyF (w : Word) : Decoded :=
  if loByte w = 0x07#8 then .instr (.ldVxDt (xField w))
  else if loByte w = 0x0A#8 then .instr (.ldVxK (xField w))
  else if loByte w = 0x15#8 then .instr (.ldDtVx (xField w))
  else if loByte w = 0x18#8 then .instr (.ldStVx (xField w))
  else if loByte w = 0x1E#8 then .instr (.addIVx (xField w))
  else if loByte w = 0x29#8 then .instr (.ldFVx (xField w))
  else if loByte w = 0x33#8 then .instr (.ldBVx (xField w))
  else if loByte w = 0x55#8 then .instr (.storeRegs (xField w))
  else if loByte w = 0x65#8 then .instr (.loadRegs (xField w))
  else .unknownOpcode w

/-- Family 0: the two exact words before the fallback (R85). -/
def decodeFamily0 (w : Word) : Decoded :=
  if w = 0x00E0#16 then .instr .cls
  else if w = 0x00EE#16 then .instr .ret
  else .instr (.sys (nnnField w))

/-- `decode(2-byte word) -> Instruction`, a pure and total function (R84), by the leading nibble (R88). In the
families 5 and 9 the trailing nibble must be 0 (R90). -/
def decodeWord (w : Word) : Decoded :=
  if opField w = 0x0#4 then decodeFamily0 w
  else if opField w = 0x1#4 then .instr (.jp (nnnField w))
  else if opField w = 0x2#4 then .instr (.call (nnnField w))
  else if opField w = 0x3#4 then .instr (.seImm (xField w) (nnField w))
  else if opField w = 0x4#4 then .instr (.sneImm (xField w) (nnField w))
  else if opField w = 0x5#4 then
    (if nField w = 0x0#4 then .instr (.seReg (xField w) (yField w)) else .unknownOpcode w)
  else if opField w = 0x6#4 then .instr (.ldImm (xField w) (nnField w))
  else if opField w = 0x7#4 then .instr (.addImm (xField w) (nnField w))
  else if opField w = 0x8#4 then decodeFamily8 w
  else if opField w = 0x9#4 then
    (if nField w = 0x0#4 then .instr (.sneReg (xField w) (yField w)) else .unknownOpcode w)
  else if opField w = 0xA#4 then .instr (.ldI (nnnField w))
  else if opField w = 0xB#4 then .instr (.jpV0 (nnnField w))
  else if opField w = 0xC#4 then .instr (.rnd (xField w) (nnField w))
  else if opField w = 0xD#4 then .instr (.drw (xField w) (yField w) (nField w))
  else if opField w = 0xE#4 then decodeFamilyE w
  else decodeFamilyF w

/-- What decoding a byte stream answers, total on any bytes. -/
inductive DecodedBytes
  /-- The first two bytes are this instruction, and these bytes follow it. -/
  | instr (i : Instr) (rest : List Byte)
  /-- The first two bytes are the word of no instruction. -/
  | unknownOpcode (w : Word) (rest : List Byte)
  /-- Fewer than the two bytes every instruction has (R80). -/
  | tooShort
  deriving DecidableEq, Repr

/-- Decode the first two bytes, the one length there is (R80). -/
def decodeBytes : List Byte → DecodedBytes
  | first :: second :: rest =>
    match decodeWord (wordOfBytes first second) with
    | .instr i => .instr i rest
    | .unknownOpcode w => .unknownOpcode w rest
  | [_] => .tooShort
  | [] => .tooShort

/-! ### The encoder -/

/-- Format NNN (R82). -/
def wordNNN (op : Nibble) (nnn : Addr12) : Word := op ++ nnn

/-- Format XNN (R82). -/
def wordXNN (op : Nibble) (x : Reg) (nn : Byte) : Word := op ++ x ++ nn

/-- Format XY with its selector, and format XYN (R82). -/
def wordXYN (op : Nibble) (x y : Reg) (n : Nibble) : Word := op ++ x ++ y ++ n

/-- The word of an instruction, by the formats of R82 and the patterns of R88. Format X is format XNN with its
selector byte in the place of `NN`. -/
def encode : Instr → Word
  | .cls => 0x00E0#16
  | .ret => 0x00EE#16
  | .sys nnn => wordNNN 0x0#4 nnn
  | .jp nnn => wordNNN 0x1#4 nnn
  | .call nnn => wordNNN 0x2#4 nnn
  | .seImm x nn => wordXNN 0x3#4 x nn
  | .sneImm x nn => wordXNN 0x4#4 x nn
  | .seReg x y => wordXYN 0x5#4 x y 0x0#4
  | .ldImm x nn => wordXNN 0x6#4 x nn
  | .addImm x nn => wordXNN 0x7#4 x nn
  | .ldReg x y => wordXYN 0x8#4 x y 0x0#4
  | .orReg x y => wordXYN 0x8#4 x y 0x1#4
  | .andReg x y => wordXYN 0x8#4 x y 0x2#4
  | .xorReg x y => wordXYN 0x8#4 x y 0x3#4
  | .addReg x y => wordXYN 0x8#4 x y 0x4#4
  | .sub x y => wordXYN 0x8#4 x y 0x5#4
  | .shr x y => wordXYN 0x8#4 x y 0x6#4
  | .subn x y => wordXYN 0x8#4 x y 0x7#4
  | .shl x y => wordXYN 0x8#4 x y 0xE#4
  | .sneReg x y => wordXYN 0x9#4 x y 0x0#4
  | .ldI nnn => wordNNN 0xA#4 nnn
  | .jpV0 nnn => wordNNN 0xB#4 nnn
  | .rnd x nn => wordXNN 0xC#4 x nn
  | .drw x y n => wordXYN 0xD#4 x y n
  | .skp x => wordXNN 0xE#4 x 0x9E#8
  | .sknp x => wordXNN 0xE#4 x 0xA1#8
  | .ldVxDt x => wordXNN 0xF#4 x 0x07#8
  | .ldVxK x => wordXNN 0xF#4 x 0x0A#8
  | .ldDtVx x => wordXNN 0xF#4 x 0x15#8
  | .ldStVx x => wordXNN 0xF#4 x 0x18#8
  | .addIVx x => wordXNN 0xF#4 x 0x1E#8
  | .ldFVx x => wordXNN 0xF#4 x 0x29#8
  | .ldBVx x => wordXNN 0xF#4 x 0x33#8
  | .storeRegs x => wordXNN 0xF#4 x 0x55#8
  | .loadRegs x => wordXNN 0xF#4 x 0x65#8

/-! ### The opcode map as a table -/

/-- One row of R88: a word selects the row when `w AND mask = pattern`; its operand fields then make the
instruction. -/
structure OpcodeRow where
  /-- Column "mask". -/
  mask : Word
  /-- Column "match". -/
  pattern : Word
  /-- The instruction the row's operand fields make. -/
  operands : Word → Instr

/-- Rows 1 to 10 of R88. -/
def opcodeRows1 : List OpcodeRow :=
  [⟨0xFFFF#16, 0x00E0#16, fun _ => .cls⟩,
   ⟨0xFFFF#16, 0x00EE#16, fun _ => .ret⟩,
   ⟨0xF000#16, 0x0000#16, fun w => .sys (nnnField w)⟩,
   ⟨0xF000#16, 0x1000#16, fun w => .jp (nnnField w)⟩,
   ⟨0xF000#16, 0x2000#16, fun w => .call (nnnField w)⟩,
   ⟨0xF000#16, 0x3000#16, fun w => .seImm (xField w) (nnField w)⟩,
   ⟨0xF000#16, 0x4000#16, fun w => .sneImm (xField w) (nnField w)⟩,
   ⟨0xF00F#16, 0x5000#16, fun w => .seReg (xField w) (yField w)⟩,
   ⟨0xF000#16, 0x6000#16, fun w => .ldImm (xField w) (nnField w)⟩,
   ⟨0xF000#16, 0x7000#16, fun w => .addImm (xField w) (nnField w)⟩]

/-- Rows 11 to 24 of R88. -/
def opcodeRows2 : List OpcodeRow :=
  [⟨0xF00F#16, 0x8000#16, fun w => .ldReg (xField w) (yField w)⟩,
   ⟨0xF00F#16, 0x8001#16, fun w => .orReg (xField w) (yField w)⟩,
   ⟨0xF00F#16, 0x8002#16, fun w => .andReg (xField w) (yField w)⟩,
   ⟨0xF00F#16, 0x8003#16, fun w => .xorReg (xField w) (yField w)⟩,
   ⟨0xF00F#16, 0x8004#16, fun w => .addReg (xField w) (yField w)⟩,
   ⟨0xF00F#16, 0x8005#16, fun w => .sub (xField w) (yField w)⟩,
   ⟨0xF00F#16, 0x8006#16, fun w => .shr (xField w) (yField w)⟩,
   ⟨0xF00F#16, 0x8007#16, fun w => .subn (xField w) (yField w)⟩,
   ⟨0xF00F#16, 0x800E#16, fun w => .shl (xField w) (yField w)⟩,
   ⟨0xF00F#16, 0x9000#16, fun w => .sneReg (xField w) (yField w)⟩,
   ⟨0xF000#16, 0xA000#16, fun w => .ldI (nnnField w)⟩,
   ⟨0xF000#16, 0xB000#16, fun w => .jpV0 (nnnField w)⟩,
   ⟨0xF000#16, 0xC000#16, fun w => .rnd (xField w) (nnField w)⟩,
   ⟨0xF000#16, 0xD000#16, fun w => .drw (xField w) (yField w) (nField w)⟩]

/-- Rows 25 to 35 of R88. -/
def opcodeRows3 : List OpcodeRow :=
  [⟨0xF0FF#16, 0xE09E#16, fun w => .skp (xField w)⟩,
   ⟨0xF0FF#16, 0xE0A1#16, fun w => .sknp (xField w)⟩,
   ⟨0xF0FF#16, 0xF007#16, fun w => .ldVxDt (xField w)⟩,
   ⟨0xF0FF#16, 0xF00A#16, fun w => .ldVxK (xField w)⟩,
   ⟨0xF0FF#16, 0xF015#16, fun w => .ldDtVx (xField w)⟩,
   ⟨0xF0FF#16, 0xF018#16, fun w => .ldStVx (xField w)⟩,
   ⟨0xF0FF#16, 0xF01E#16, fun w => .addIVx (xField w)⟩,
   ⟨0xF0FF#16, 0xF029#16, fun w => .ldFVx (xField w)⟩,
   ⟨0xF0FF#16, 0xF033#16, fun w => .ldBVx (xField w)⟩,
   ⟨0xF0FF#16, 0xF055#16, fun w => .storeRegs (xField w)⟩,
   ⟨0xF0FF#16, 0xF065#16, fun w => .loadRegs (xField w)⟩]

/-- The 35 rows of R88, the two EXACT rows before `SYS` (R85). -/
def opcodeTable : List OpcodeRow := opcodeRows1 ++ opcodeRows2 ++ opcodeRows3

/-- Decoding by the table: the first row the word selects. -/
def decodeByTable (w : Word) : Decoded :=
  match opcodeTable.find? (fun row => w &&& row.mask == row.pattern) with
  | some row => .instr (row.operands w)
  | none => .unknownOpcode w

/-! ### The host's view of a table word -/

/-- The word whose low `nbits` bits are those of `w`, every bit above them 0. -/
def tableWord (nbits w : Nat) : Word := BitVec.ofNat 16 (w % 2 ^ nbits)

/-- The instruction the decoder reads from a word of the opcode table, laid out in memory as two bytes, the high
byte at the lower address (R58); `none` where it refuses. -/
def decodeTableWord (nbits w : Nat) : Option Instr :=
  match decodeBytes [hiByte (tableWord nbits w), loByte (tableWord nbits w)] with
  | .instr i _ => some i
  | .unknownOpcode _ _ => none
  | .tooShort => none

end Sys2Proof
end

