-- ==== Sys2Proof/Machine/Memory.lean ====
section
/-! DEFINITION. The memory unit (20_memory.md): what an unlisted address reads as, the canonical form, reading and
writing one byte, the range check, and the multi-byte accesses made of them. -/

namespace Sys2Proof.Machine

open Sys2Proof

/-- What an address reads as that nothing has written since reset: the reset contents of `State.reset`, the font
table at 0x000..0x1FF and 0x00 elsewhere (10_state.md R43; log 5). -/
def Memory.resetByte (a : Nat) : Byte :=
  if a < Config.fontRegion then Parameters.fontTable.getD a 0x00#8 else 0x00#8

/-- Every listed address is above `low`, and they rise strictly. -/
def Memory.rising (low : Nat) : Memory → Bool
  | [] => true
  | (b, _) :: rest => decide (low ≤ b) && Memory.rising (b + 1) rest

/-- The canonical form: addresses strictly rising, all of them in the 4096 bytes there are, and no pair equal to
what the unlisted address reads as. -/
def Memory.wf (m : Memory) : Bool :=
  Memory.rising 0 m && m.all (fun c => decide (c.1 < Config.memSize) && c.2 != Memory.resetByte c.1)

/-- `mem[a]` (R53). No instruction reads at 4096 or above, since each checks its range first (log 18). -/
def Memory.read : Memory → Nat → Byte
  | [], a => Memory.resetByte a
  | (b, w) :: rest, a => if b = a then w else Memory.read rest a

/-- The list without the address `a`. -/
def Memory.erase (m : Memory) (a : Nat) : Memory := m.filter (fun c => c.1 != a)

/-- The pair `(a, v)` put in its place in a list of rising addresses. -/
def Memory.insert (a : Nat) (v : Byte) : Memory → Memory
  | [] => [(a, v)]
  | (b, w) :: rest => if a < b then (a, v) :: (b, w) :: rest else (b, w) :: Memory.insert a v rest

/-- `mem[a] <- v` (R54). Writing what the unlisted address reads as removes the pair. Nothing is written at 4096 or
above (R55); no instruction gets there, since each checks its range first (log 18). -/
def Memory.write (m : Memory) (a : Nat) (v : Byte) : Memory :=
  if a < Config.memSize then
    if v = Memory.resetByte a then m.erase a else (m.erase a).insert a v
  else m

/-- `CheckRange(addr, n)`: the address `MemoryRange` is raised for, the smallest of `addr..addr+n-1` that is 4096
or more; none where the whole range exists (R55, R12). -/
def checkRange (addr : Nat) : Nat → Option Nat
  | 0 => none
  | n + 1 => if Config.memSize ≤ addr then some addr else checkRange (addr + 1) n

/-- The `n` bytes from address `a` on, ascending (R59). -/
def Memory.readBytes (m : Memory) (a : Nat) : Nat → List Byte
  | 0 => []
  | n + 1 => m.read a :: m.readBytes (a + 1) n

/-- Bytes written from address `a` on, ascending (R59). -/
def Memory.writeBytes (m : Memory) (a : Nat) : List Byte → Memory
  | [] => m
  | v :: rest => (m.write a v).writeBytes (a + 1) rest

/-- The word at address `a`, high byte first (R58). -/
def Memory.readWord (m : Memory) (a : Nat) : Word := wordOfBytes (m.read a) (m.read (a + 1))

/-- A word placed at address `a`, high byte first (R58). -/
def Memory.writeWord (m : Memory) (a : Nat) (w : Word) : Memory := m.writeBytes a [hiByte w, loByte w]

end Sys2Proof.Machine
end

