-- ==== Sys2Proof/Machine/Operands.lean ====
section
/-! DEFINITION. The operands of the instructions: registers, the key index, the sprite anchor, data addresses, and
the digits of a byte. -/

namespace Sys2Proof.Machine

open Sys2Proof

/-- `V[x]` (10_state.md R20, 30_encoding.md R83). -/
def State.getV (s : State) (x : Reg) : Byte := s.v.get x.toFin

/-- `V[0]..V[x]`, ascending: the block of the store-registers instruction (R20, 43_index_memory_timers.md R184). -/
def State.blockV (s : State) (x : Reg) : List Byte := s.v.toList.take (x.toNat + 1)

/-- The key a skip tests: the low nibble of `V[x]` (44_display_input.md R206). -/
def State.keyIndex (s : State) (x : Reg) : Nat := (s.getV x).toNat % 16

/-- The column of the anchor, `V[x] mod 64` (R202; log 20). -/
def State.anchorX (s : State) (x : Reg) : Nat := (s.getV x).toNat % Config.dispW

/-- The row of the anchor, `V[y] mod 32` (R202). -/
def State.anchorY (s : State) (y : Reg) : Nat := (s.getV y).toNat % Config.dispH

/-- The data address `I + k`, on unbounded integers, neither masked nor reduced (20_memory.md R56; the spec's
decision D4, log 20). -/
def State.dataAddress (s : State) (k : Nat) : Nat := s.i.toNat + k

/-- The address `5 * V[x]` of a glyph, the whole byte multiplied (43_index_memory_timers.md R182). -/
def fontAddress (digit : Byte) : Word := BitVec.ofNat 16 (Config.glyphBytes * digit.toNat)

/-- Hundreds, tens and units of a byte, each the binary value of one decimal digit (R183). -/
def bcdDigits (value : Byte) : List Byte :=
  [BitVec.ofNat 8 (value.toNat / 100), BitVec.ofNat 8 (value.toNat / 10 % 10), BitVec.ofNat 8 (value.toNat % 10)]

end Sys2Proof.Machine
end

