-- ==== Sys2Proof/Machine/Ops.lean ====
section
/-! DEFINITION. The named operations on the state: registers, `pc`, the call stack, the random source, the display,
the keypad, and taking a fault. -/

namespace Sys2Proof.Machine

open Sys2Proof

/-! ### Registers and `pc` -/

/-- `V[x] <- b` (10_state.md R20: no register is hardwired). -/
def State.setV (s : State) (x : Reg) (b : Byte) : State := { s with v := s.v.set x.toNat b x.isLt }

/-- A result to `V[x]`, then a flag to `VF`, in this order, so that `VF` ends as the flag even when `x` is 15
(R22). -/
def State.setResultAndFlag (s : State) (x : Reg) (result : Byte) (flag : Bool) : State :=
  (s.setV x result).setV VF (flagByte flag)

/-- Registers from number `j` on receive the bytes in turn (43_index_memory_timers.md R185). -/
def loadBlock (v : Vector Byte 16) (j : Nat) : List Byte → Vector Byte 16
  | [] => v
  | b :: rest => loadBlock (v.setIfInBounds j b) (j + 1) rest

/-- `pc <- target` (R25). -/
def State.jump (s : State) (target : Word) : State := { s with pc := target }

/-- The skip: one more instruction width when the condition holds (41_control_flow.md R135). -/
def State.skipIf (s : State) (condition : Bool) : State := if condition then s.jump (s.pc + 2#16) else s

/-- The step-back: `pc` returns to the instruction that was fetched (R139, 00_scope.md R15). -/
def State.stepBack (s : State) : State := s.jump (s.pc - 2#16)

/-! ### The call stack -/

/-- The stack of capacity `depth` is full with so many entries (10_state.md R31; the equality is
literal, log 18). -/
def stackIsFull (depth : Config.StackDepth) (entries : Nat) : Bool :=
  match depth with
  | .bounded n _ => entries == n
  | .unbounded => false

/-- `Push(v)`: none where it raises StackOverflow (R31). -/
def State.push (s : State) (value : Word) : Option State :=
  if stackIsFull s.stackDepth s.stack.length then none else some { s with stack := s.stack ++ [value] }

/-- `Pop()`: the last entry and the state without it, or none with the stack unchanged (R31). -/
def State.pop (s : State) : Option (Word × State) :=
  match s.stack.getLast? with
  | none => none
  | some value => some (value, { s with stack := s.stack.dropLast })

/-! ### The random source -/

/-- `RandomByte()`: the byte drawn and the state with `rng` advanced (R34). -/
def State.randomByte (s : State) : Byte × State :=
  ((Config.rngNext s.rng).1, { s with rng := (Config.rngNext s.rng).2 })

/-! ### The keypad -/

/-- `KeyHeld(k)` (R38). -/
def State.keyHeld (s : State) (k : Nat) : Bool := s.key.toList.getD k false

/-- `FirstHeldKey()`: the least key held, or none (R38). -/
def State.firstHeldKey (s : State) : Option Nat := (List.range 16).find? s.keyHeld

/-! ### The display -/

/-- `disp[x][y]`, false outside the display (R35, R36). -/
def Display.pixel (d : Display) (x y : Nat) : Bool :=
  if h : x < 64 ∧ y < 32 then (d.get ⟨x, h.1⟩).get ⟨y, h.2⟩ else false

/-- `disp[x][y] <- b`; nothing outside the display (R36). -/
def Display.setPixel (d : Display) (x y : Nat) (b : Bool) : Display :=
  if h : x < 64 ∧ y < 32 then d.set x ((d.get ⟨x, h.1⟩).set y b h.2) h.1 else d

/-- All 64 by 32 pixels 0 (R37). -/
def Display.clear : Display := Vector.replicate 64 (Vector.replicate 32 false)

/-- `Toggle(x, y)`: the display with that pixel flipped and its old value; no change and 0 outside (R36). -/
def Display.toggle (d : Display) (x y : Nat) : Display × Bool := (d.setPixel x y (!d.pixel x y), d.pixel x y)

/-- A drawing under way: the display, and whether a set pixel has been cleared so far. -/
abbrev Drawing := Display × Bool

/-- One sprite bit: a set bit toggles its pixel and ORs the old value into the collision; a clear bit changes
nothing (44_display_input.md R203). -/
def drawBit (acc : Drawing) (x y : Nat) (bit : Bool) : Drawing :=
  if bit then
    let toggled := acc.1.toggle x y
    (toggled.1, acc.2 || toggled.2)
  else acc

/-- One sprite row: column `c` is bit `7 - c` of the byte (R201). -/
def drawRow (acc : Drawing) (x0 y : Nat) (row : Byte) : Drawing :=
  (List.range 8).foldl (fun acc c => drawBit acc (x0 + c) y (row.getLsbD (7 - c))) acc

/-- The sprite's rows, top to bottom (R203). -/
def drawRows (acc : Drawing) (x0 y : Nat) : List Byte → Drawing
  | [] => acc
  | row :: rest => drawRows (drawRow acc x0 y row) x0 (y + 1) rest

/-- A sprite drawn with its top-left pixel at `(x0, y0)`, the collision starting from 0 (R203). -/
def Display.drawSprite (d : Display) (x0 y0 : Nat) (rows : List Byte) : Drawing := drawRows (d, false) x0 y0 rows

/-! ### Faults -/

/-- `raise F(info)`: `FAULT` keeps the first record since reset, the tick's outcome is this one, and nothing else
changes (60_exceptions.md R222, R227, R229). -/
def State.raise (s : State) (r : FaultRecord) : State :=
  { s with fault := some (s.fault.getD r), report := .fault r }

/-- The state that `body` gives, unless the `n` bytes from `addr` on are not all there: then `MemoryRange` of the
first that is not, with nothing of `body` done (20_memory.md R55, 60_exceptions.md R224, R227). The record's word
is the instruction's own (R221; log 9). -/
def State.withRange (s : State) (instr : Instr) (addr n : Nat) (body : State) : State :=
  match checkRange addr n with
  | none => body
  | some bad => s.raise { code := .memoryRange, word := encode instr, addr := bad }

end Sys2Proof.Machine
end

