-- ==== Sys2Proof/Machine/Cycle.lean ====
section
/-! DEFINITION. The tick up to its execute phase (40_cycle.md R110 to R112): fetch, decode, and the faults of the
two; and a word placed where the next fetch finds it. -/

namespace Sys2Proof.Machine

open Sys2Proof

/-- What the fetch answers. -/
inductive Fetched
  /-- The word at `pc`, and the state with `pc` advanced by 2. -/
  | word (w : Word) (s : State)
  /-- `MemoryRange` of this address; nothing has changed. -/
  | outOfRange (bad : Nat)
  deriving DecidableEq, Repr

/-- `Fetch()`: both bytes in range, or the fault; then the word, high byte first, and `pc + 2` (20_memory.md R58,
R111). -/
def State.fetch (s : State) : Fetched :=
  match checkRange s.pc.toNat 2 with
  | some bad => .outOfRange bad
  | none => .word (s.mem.readWord s.pc.toNat) (s.jump (s.pc + 2#16))

/-- What fetch and decode leave to do. -/
inductive Begun
  /-- Execute this instruction on this state, `pc` advanced. -/
  | execute (i : Instr) (s : State)
  /-- The tick is over: a fault of the fetch or of the decoder was taken. -/
  | ended (s : State)
  deriving DecidableEq, Repr

/-- Fetch and decode, with the phases' faults in their order (60_exceptions.md R228): on a fetch fault `pc` stays,
with word 0 in the record; on an unknown opcode `pc` is past the word, whose address is in the record (R221, R227).
The report of the tick begins as `Ok` (R114; log 8). -/
def State.beginTick (s : State) : Begun :=
  let fresh : State := { s with report := .ok }
  match fresh.fetch with
  | .outOfRange bad => .ended (fresh.raise { code := .memoryRange, word := 0x0000#16, addr := bad })
  | .word w fetched =>
    match decodeWord w with
    | .instr i => .execute i fetched
    | .unknownOpcode w => .ended (fetched.raise { code := .unknownOpcode, word := w, addr := s.pc.toNat })

/-- The state with a word at `pc`, where the next fetch finds it. -/
def State.placeWord (s : State) (w : Word) : State := { s with mem := s.mem.writeWord s.pc.toNat w }

end Sys2Proof.Machine
end

