-- ==== Sys2Proof/Machine/ControlFlow.lean ====
section
/-! DEFINITION. The control-flow instructions (41_control_flow.md). `pc` is the advanced one: the fetch has already
added 2 (40_cycle.md R111). -/

namespace Sys2Proof.Machine

open Sys2Proof

/-- What a meaning answers. -/
abbrev Result := Host.Outcome State Fault Refusal

/-- `SYS NNN`: nothing (R130; the spec's decision D7, log 10). -/
def execSys (_nnn : Addr12) (s : State) : Result := .next s

/-- `RET`: the popped value to `pc`; nothing on an empty stack (R131). -/
def execRet (s : State) : Result :=
  match s.pop with
  | none => .next s
  | some (value, popped) => .next (popped.jump value)

/-- `JP NNN` (R132). -/
def execJp (nnn : Addr12) (s : State) : Result := .next (s.jump (zext16 nnn))

/-- `CALL NNN`: push the advanced `pc`, then jump; StackOverflow on a full stack (R133, 60_exceptions.md R225). -/
def execCall (nnn : Addr12) (s : State) : Result :=
  match s.push s.pc with
  | none => .next (s.raise { code := .stackOverflow, word := encode (.call nnn), addr := s.pc.toNat })
  | some pushed => .next (pushed.jump (zext16 nnn))

/-- `JP V0, NNN` (R134). -/
def execJpV0 (nnn : Addr12) (s : State) : Result := .next (s.jump (zext16 nnn + (s.getV 0x0#4).setWidth 16))

/-- `SE Vx, NN` (R135). -/
def execSeImm (x : Reg) (nn : Byte) (s : State) : Result := .next (s.skipIf (s.getV x == nn))

/-- `SNE Vx, NN` (R136). -/
def execSneImm (x : Reg) (nn : Byte) (s : State) : Result := .next (s.skipIf (s.getV x != nn))

/-- `SE Vx, Vy` (R137). -/
def execSeReg (x y : Reg) (s : State) : Result := .next (s.skipIf (s.getV x == s.getV y))

/-- `SNE Vx, Vy` (R138). -/
def execSneReg (x y : Reg) (s : State) : Result := .next (s.skipIf (s.getV x != s.getV y))

/-- `LD Vx, K`: the least held key to `V[x]`, or the step-back when no key is held (R139). -/
def execLdVxK (x : Reg) (s : State) : Result :=
  match s.firstHeldKey with
  | none => .next s.stepBack
  | some k => .next (s.setV x (BitVec.ofNat 8 k))

end Sys2Proof.Machine
end

