-- ==== Sys2Proof/Machine/Alu.lean ====
section
/-! DEFINITION. Register arithmetic, logic, shifts and the random byte (42_alu.md). All arithmetic is on bytes and
wraps (R145). -/

namespace Sys2Proof.Machine

open Sys2Proof

/-- `LD Vx, NN` (R150). -/
def execLdImm (x : Reg) (nn : Byte) (s : State) : Result := .next (s.setV x nn)

/-- `ADD Vx, NN`, no flag (R151). -/
def execAddImm (x : Reg) (nn : Byte) (s : State) : Result := .next (s.setV x (s.getV x + nn))

/-- `LD Vx, Vy` (R152). -/
def execLdReg (x y : Reg) (s : State) : Result := .next (s.setV x (s.getV y))

/-- `OR Vx, Vy`, no flag (R153). -/
def execOrReg (x y : Reg) (s : State) : Result := .next (s.setV x (s.getV x ||| s.getV y))

/-- `AND Vx, Vy`, no flag (R154). -/
def execAndReg (x y : Reg) (s : State) : Result := .next (s.setV x (s.getV x &&& s.getV y))

/-- `XOR Vx, Vy`, no flag (R155). -/
def execXorReg (x y : Reg) (s : State) : Result := .next (s.setV x (s.getV x ^^^ s.getV y))

/-- `ADD Vx, Vy`, `VF` the carry (R156). -/
def execAddReg (x y : Reg) (s : State) : Result :=
  .next (s.setResultAndFlag x (s.getV x + s.getV y) (carryFlag (s.getV x) (s.getV y)))

/-- `SUB Vx, Vy`, `VF` the inverted borrow (R157). -/
def execSub (x y : Reg) (s : State) : Result :=
  .next (s.setResultAndFlag x (s.getV x - s.getV y) (noBorrowFlag (s.getV x) (s.getV y)))

/-- `SHR Vx`, `VF` the bit shifted out; `Y` is ignored (R158). -/
def execShr (x _y : Reg) (s : State) : Result :=
  .next (s.setResultAndFlag x (s.getV x >>> 1) (lowBitFlag (s.getV x)))

/-- `SUBN Vx, Vy`: `V[y] - V[x]`, `VF` the inverted borrow (R159). -/
def execSubn (x y : Reg) (s : State) : Result :=
  .next (s.setResultAndFlag x (s.getV y - s.getV x) (noBorrowFlag (s.getV y) (s.getV x)))

/-- `SHL Vx`, `VF` the bit shifted out; `Y` is ignored (R160). -/
def execShl (x _y : Reg) (s : State) : Result :=
  .next (s.setResultAndFlag x (s.getV x <<< 1) (highBitFlag (s.getV x)))

/-- `RND Vx, NN`: one byte drawn, masked (R161). -/
def execRnd (x : Reg) (nn : Byte) (s : State) : Result :=
  .next (s.randomByte.2.setV x (s.randomByte.1 &&& nn))

end Sys2Proof.Machine
end

