-- ==== Sys2Proof/Machine/DisplayInput.lean ====
section
/-! DEFINITION. Display and keypad instructions (44_display_input.md). -/

namespace Sys2Proof.Machine

open Sys2Proof

/-- `CLS` (R200). -/
def execCls (s : State) : Result := .next { s with disp := Display.clear }

/-- The sprite `DRW` draws, on the display and at the anchor of the state before: the `n` bytes from `I` on, all of
them read, clipped or not (R203). -/
def State.drawn (s : State) (x y : Reg) (n : Nibble) : Drawing :=
  s.disp.drawSprite (s.anchorX x) (s.anchorY y) (s.mem.readBytes (s.dataAddress 0) n.toNat)

/-- `DRW Vx, Vy, N`: the pixels toggled, then `VF` the collision; the operands are read first (R203). -/
def execDrw (x y : Reg) (n : Nibble) (s : State) : Result :=
  .next (s.withRange (.drw x y n) (s.dataAddress 0) n.toNat
    (({ s with disp := (s.drawn x y n).1 } : State).setV VF (flagByte (s.drawn x y n).2)))

/-- `SKP Vx` (R207). -/
def execSkp (x : Reg) (s : State) : Result := .next (s.skipIf (s.keyHeld (s.keyIndex x)))

/-- `SKNP Vx` (R208). -/
def execSknp (x : Reg) (s : State) : Result := .next (s.skipIf (!s.keyHeld (s.keyIndex x)))

end Sys2Proof.Machine
end

