-- ==== Sys2Proof/Machine/IndexMemory.lean ====
section
/-! DEFINITION. Index register, memory and timer instructions (43_index_memory_timers.md). `I` is left unchanged by
every memory access (R186). -/

namespace Sys2Proof.Machine

open Sys2Proof

/-- `LD I, NNN` (R180). -/
def execLdI (nnn : Addr12) (s : State) : Result := .next { s with i := zext16 nnn }

/-- `ADD I, Vx`, wrapping in 16 bits, no flag (R181). -/
def execAddIVx (x : Reg) (s : State) : Result := .next { s with i := s.i + (s.getV x).setWidth 16 }

/-- `LD F, Vx` (R182). -/
def execLdFVx (x : Reg) (s : State) : Result := .next { s with i := fontAddress (s.getV x) }

/-- `LD B, Vx`: hundreds, tens and units of `V[x]` at `I`, `I + 1`, `I + 2` (R183). -/
def execLdBVx (x : Reg) (s : State) : Result :=
  .next (s.withRange (.ldBVx x) (s.dataAddress 0) 3
    { s with mem := s.mem.writeBytes (s.dataAddress 0) (bcdDigits (s.getV x)) })

/-- `LD [I], Vx`: `V[0]..V[x]` stored from `I` on (R184). -/
def execStoreRegs (x : Reg) (s : State) : Result :=
  .next (s.withRange (.storeRegs x) (s.dataAddress 0) (x.toNat + 1)
    { s with mem := s.mem.writeBytes (s.dataAddress 0) (s.blockV x) })

/-- `LD Vx, [I]`: `V[0]..V[x]` loaded from `I` on (R185). -/
def execLoadRegs (x : Reg) (s : State) : Result :=
  .next (s.withRange (.loadRegs x) (s.dataAddress 0) (x.toNat + 1)
    { s with v := loadBlock s.v 0 (s.mem.readBytes (s.dataAddress 0) (x.toNat + 1)) })

/-- `LD Vx, DT` (R187). -/
def execLdVxDt (x : Reg) (s : State) : Result := .next (s.setV x s.dt)

/-- `LD DT, Vx` (R189). -/
def execLdDtVx (x : Reg) (s : State) : Result := .next { s with dt := s.getV x }

/-- `LD ST, Vx` (R190). -/
def execLdStVx (x : Reg) (s : State) : Result := .next { s with st := s.getV x }

end Sys2Proof.Machine
end

