-- ==== Sys2Proof/Machine/Step.lean ====
section
/-! DEFINITION. One step of the machine: the driver's move Tick (40_cycle.md R110). -/

namespace Sys2Proof.Machine

open Sys2Proof

/-- One tick: fetch, decode, execute. The driver's other moves are not part of it (log 19). -/
def step (s : State) : Host.Outcome State Fault Refusal :=
  match s.beginTick with
  | .execute i fetched => exec i fetched
  | .ended t => .next t

/-- `s` with a word of the opcode table stored where the next step fetches it, at `pc`. It stands for the load of a
program from outside the machine (log 6). -/
def State.withFetchWord (s : State) (nbits w : Nat) : State := s.placeWord (tableWord nbits w)

end Sys2Proof.Machine
end

