-- ==== Sys2Proof/Machine/Driver.lean ====
section
/-! DEFINITION. The host interface (60_exceptions.md R243 to R249): the five moves of the driver, and a run of any
finite sequence of them (40_cycle.md R116). -/

namespace Sys2Proof.Machine

open Sys2Proof

/-- `Reset(ROM, FONT_TABLE, SEED)` of a machine with this `STACK_DEPTH` (R244, 70_reset_and_hazards.md R260): the open
parameters of 00_scope.md R9 are its arguments. `none` for the ROM or the font table stands for one that cannot be
supplied in full; a font table has 512 bytes, and a ROM at most 3584. -/
def State.resetWith (depth : Config.StackDepth) (rom font : Option (List Byte)) (seed : Nat) : Result :=
  match rom, font with
  | some rom, some font =>
    if rom.length ≤ Config.romLimit ∧ font.length = Config.fontRegion then
      .next { State.reset with
        stackDepth := depth, rng := seed, mem := (Memory.writeBytes [] 0 font).writeBytes Config.romBase rom }
    else .fault .loadFailure
  | some _, none => .fault .loadFailure
  | none, some _ => .fault .loadFailure
  | none, none => .fault .loadFailure

/-- `KeyEvent(k, held)`: `key[k] <- held` (R245). -/
def State.keyEvent (s : State) (k : Fin 16) (held : Bool) : State := { s with key := s.key.set k.val held k.isLt }

/-- One timer's decrement: it stops at zero (R246; the spec took it from general knowledge, D12, log 17). -/
def decrement (timer : Byte) : Byte := if timer = 0x00#8 then timer else timer - 1

/-- `TimerDec()`: both timers together (R246). -/
def State.timerDec (s : State) : State := { s with dt := decrement s.dt, st := decrement s.st }

/-- `DisplayRead(x, y)` returns the pixel and changes nothing (R247). -/
def State.displayRead (s : State) (x : Fin 64) (y : Fin 32) : Bool := s.disp.pixel x.val y.val

/-- The driver's moves (R243). -/
inductive Move
  /-- Reset, with what was supplied; the machine keeps its `STACK_DEPTH`. -/
  | reset (rom font : Option (List Byte)) (seed : Nat)
  /-- One tick. -/
  | tick
  /-- A key pressed or released. -/
  | keyEvent (k : Fin 16) (held : Bool)
  /-- The timers decremented. -/
  | timerDec
  /-- A pixel read by the renderer. -/
  | displayRead (x : Fin 64) (y : Fin 32)
  deriving DecidableEq, Repr

/-- The state one move leaves (R243). -/
def Move.apply (s : State) : Move → Result
  | .reset rom font seed => State.resetWith s.stackDepth rom font seed
  | .tick => step s
  | .keyEvent k held => .next (s.keyEvent k held)
  | .timerDec => .next s.timerDec
  | .displayRead _ _ => .next s

/-- A finite sequence of moves, stopping where there is no machine left (R116, R244). -/
def drive (s : State) : List Move → Result
  | [] => .next s
  | move :: rest =>
    match move.apply s with
    | .next t => drive t rest
    | .fault r => .fault r
    | .refused r => .refused r

end Sys2Proof.Machine
end

