-- ==== Sys2Proof/Safety.lean ====
section
/-! DEFINITION. The terms claims use: the parts of the state and what changes only them, what an instruction may
write, the invariant of the machine, a run without a fault, and a finished program. -/

namespace Sys2Proof.Machine

open Sys2Proof

/-! ### Frames -/

/-- A part of the state that can change or stay on its own: one register, one byte, one pixel, one key, or one of
the other fields. -/
inductive Part
  | reg (r : Reg)
  | i
  | pc
  | stack
  | dt
  | st
  | rng
  | stackDepth
  | byte (address : Nat)
  | pixel (x y : Nat)
  | key (k : Nat)
  | fault
  | report
  deriving DecidableEq, Repr

/-- The part reads the same in both states. -/
def Part.same (s t : State) : Part → Prop
  | .reg r => t.getV r = s.getV r
  | .i => t.i = s.i
  | .pc => t.pc = s.pc
  | .stack => t.stack = s.stack
  | .dt => t.dt = s.dt
  | .st => t.st = s.st
  | .rng => t.rng = s.rng
  | .stackDepth => t.stackDepth = s.stackDepth
  | .byte a => t.mem.read a = s.mem.read a
  | .pixel x y => t.disp.pixel x y = s.disp.pixel x y
  | .key k => t.keyHeld k = s.keyHeld k
  | .fault => t.fault = s.fault
  | .report => t.report = s.report

/-- The frame: every part that is not among those allowed to change reads the same. -/
def ChangesOnly (may : Part → Prop) (s t : State) : Prop := ∀ p, ¬ may p → p.same s t

/-- `t` is `s` with a fault taken and nothing else changed: `FAULT` keeps its first record, the tick reports this
one (60_exceptions.md R222, R227). -/
def TakesFault (r : FaultRecord) (s t : State) : Prop :=
  t.fault = some (s.fault.getD r) ∧ t.report = .fault r ∧ ChangesOnly (fun p => p = .fault ∨ p = .report) s t

/-! ### What an instruction may write -/

/-- The six instructions that write `VF` as a side effect (10_state.md R21). -/
def writesFlag : Instr → Bool
  | .addReg _ _ | .sub _ _ | .shr _ _ | .subn _ _ | .shl _ _ | .drw _ _ _ => true
  | .cls | .ret | .sys _ | .jp _ | .call _ | .seImm _ _ | .sneImm _ _ | .seReg _ _ | .ldImm _ _ | .addImm _ _
  | .ldReg _ _ | .orReg _ _ | .andReg _ _ | .xorReg _ _ | .sneReg _ _ | .ldI _ | .jpV0 _ | .rnd _ _ | .skp _
  | .sknp _ | .ldVxDt _ | .ldVxK _ | .ldDtVx _ | .ldStVx _ | .addIVx _ | .ldFVx _ | .ldBVx _ | .storeRegs _
  | .loadRegs _ => false

/-- The instruction names the register as a destination: `V[X]`, or the block `V[0]..V[X]` of the load (R20). -/
def namesDestination (r : Reg) : Instr → Bool
  | .ldImm x _ | .addImm x _ | .rnd x _ | .ldVxDt x | .ldVxK x => r == x
  | .ldReg x _ | .orReg x _ | .andReg x _ | .xorReg x _ | .addReg x _ | .sub x _ | .shr x _ | .subn x _
  | .shl x _ => r == x
  | .loadRegs x => decide (r.toNat ≤ x.toNat)
  | .cls | .ret | .sys _ | .jp _ | .call _ | .seImm _ _ | .sneImm _ _ | .seReg _ _ | .sneReg _ _ | .ldI _ | .jpV0 _
  | .drw _ _ _ | .skp _ | .sknp _ | .ldDtVx _ | .ldStVx _ | .addIVx _ | .ldFVx _ | .ldBVx _ | .storeRegs _ => false

/-! ### Sprites -/

/-- The sprite's bit that lands on the pixel `(a, b)`: the anchor wrapped, the body clipped, row `r` the byte at
`I + r`, bit 7 leftmost (44_display_input.md R201 to R203; bit order D2). -/
def spriteBit (s : State) (x y : Reg) (n : Nibble) (a b : Nat) : Bool :=
  let x0 := (s.getV x).toNat % 64
  let y0 := (s.getV y).toNat % 32
  decide (a < 64 ∧ b < 32 ∧ x0 ≤ a ∧ a < x0 + 8 ∧ y0 ≤ b ∧ b < y0 + n.toNat) &&
    (s.mem.read (s.dataAddress (b - y0))).getLsbD (7 - (a - x0))

/-! ### The invariant -/

/-- What a fault record of this machine can hold (60_exceptions.md R221): an unknown word and the address it was
fetched from; an address out of range; a `CALL` word and a return address. -/
def FaultRecord.legal (r : FaultRecord) : Prop :=
  match r.code with
  | .unknownOpcode => decodeWord r.word = .unknownOpcode r.word ∧ r.addr ≤ 0xFFE
  | .memoryRange => 0x1000 ≤ r.addr ∧ r.addr ≤ 0xFFFF
  | .stackOverflow => opField r.word = 0x2#4 ∧ 2 ≤ r.addr ∧ r.addr ≤ 0x1000

/-- So many entries fit a stack of this capacity (10_state.md R30). -/
def stackFits (depth : Config.StackDepth) (entries : Nat) : Prop :=
  match depth with
  | .bounded n _ => entries ≤ n
  | .unbounded => True

/-- The invariant of the machine: memory in its canonical form, the stack within its capacity and holding only
values `pc` had, `pc` where R26 says it can be, and only legal fault records. -/
structure State.Inv (s : State) : Prop where
  memory : s.mem.wf = true
  depth : stackFits s.stackDepth s.stack.length
  returns : ∀ a ∈ s.stack, a.toNat ≤ 0x1000
  pcBound : s.pc.toNat ≤ 0x10FE
  recorded : ∀ r, s.fault = some r → r.legal
  reported : ∀ r, s.report = .fault r → r.legal

/-! ### Runs -/

/-- A run of the driver's moves that ends in a machine with no fault recorded (D23: `FAULT` is sticky, so none was
taken since the last reset). -/
def SafeRun (s : State) (moves : List Move) : Prop := ∃ t, drive s moves = .next t ∧ t.fault = none

/-- A finished program: no fault recorded, and `pc` at a jump to itself (40_cycle.md R119). -/
def State.finished (s : State) : Prop :=
  s.fault = none ∧ s.pc.toNat ≤ 0xFFE ∧ ∃ nnn, s.mem.readWord s.pc.toNat = encode (.jp nnn) ∧ zext16 nnn = s.pc

end Sys2Proof.Machine
end

