-- ==== Sys2Proof/Certificates/Slice0/Obligations.lean ====
section
/-! DEFINITION. What is claimed of the machine, for the provers. -/

open Sys2Proof Sys2Proof.Machine

/-! ### Encoding -/

/-- Decoding the word of a well-formed instruction gives it back, every operand at every value (30_encoding.md R82,
R88; the patterns marked G there are the spec's decision D9, log 12). -/
def Obligations.DecodeUndoesEncode : Prop :=
  ∀ i : Instr, i.wellFormed = true → decodeWord (encode i) = .instr i

/-- A word that decodes is the word of its instruction, bit for bit, and the instruction is well-formed. -/
def Obligations.EncodeUndoesDecode : Prop :=
  ∀ (w : Word) (i : Instr), decodeWord w = .instr i → i.wellFormed = true ∧ encode i = w

/-- The decoder by nibbles and bytes answers for every word what the mask and match table of 30_encoding.md section 3
answers, first row first. -/
def Obligations.DecoderFollowsOpcodeTable : Prop :=
  ∀ w : Word, decodeWord w = decodeByTable w

/-- The words that decode to nothing, family by family (the table of 30_encoding.md section 4; its rows for the
families 5 and 9 rest on the spec's decision D8, log 12). -/
def Obligations.UnknownOpcodesExactly : Prop :=
  ∀ w : Word, decodeWord w = .unknownOpcode w ↔
    (opField w = 0x5#4 ∧ nField w ≠ 0x0#4) ∨
    (opField w = 0x8#4 ∧ nField w ∈ [0x8#4, 0x9#4, 0xA#4, 0xB#4, 0xC#4, 0xD#4, 0xF#4]) ∨
    (opField w = 0x9#4 ∧ nField w ≠ 0x0#4) ∨
    (opField w = 0xE#4 ∧ loByte w ∉ [0x9E#8, 0xA1#8]) ∨
    (opField w = 0xF#4 ∧ loByte w ∉ [0x07#8, 0x0A#8, 0x15#8, 0x18#8, 0x1E#8, 0x29#8, 0x33#8, 0x55#8, 0x65#8])

/-- R85: family 0 is `CLS` and `RET` on their two exact words and `SYS NNN` on every other; none of its words is a
decode failure. -/
def Obligations.FamilyZeroDispatch : Prop :=
  ∀ nnn : Addr12, decodeWord (wordNNN 0x0#4 nnn) =
    if wordNNN 0x0#4 nnn = 0x00E0#16 then .instr .cls
    else if wordNNN 0x0#4 nnn = 0x00EE#16 then .instr .ret
    else .instr (.sys nnn)

/-- A few words written out in 95_test_vectors.md section 2.1, one or more of each family. -/
def Obligations.SpecWordsDecode : Prop :=
  decodeWord 0x00E0#16 = .instr .cls ∧ decodeWord 0x00EE#16 = .instr .ret ∧
  decodeWord 0x00E1#16 = .instr (.sys 0x0E1#12) ∧ decodeWord 0x1ABC#16 = .instr (.jp 0xABC#12) ∧
  decodeWord 0x3A10#16 = .instr (.seImm 0xA#4 0x10#8) ∧ decodeWord 0x7007#16 = .instr (.addImm 0x0#4 0x07#8) ∧
  decodeWord 0x8AB4#16 = .instr (.addReg 0xA#4 0xB#4) ∧ decodeWord 0x8AB6#16 = .instr (.shr 0xA#4 0xB#4) ∧
  decodeWord 0xD125#16 = .instr (.drw 0x1#4 0x2#4 0x5#4) ∧ decodeWord 0xE19E#16 = .instr (.skp 0x1#4) ∧
  decodeWord 0xF155#16 = .instr (.storeRegs 0x1#4) ∧ decodeWord 0xF165#16 = .instr (.loadRegs 0x1#4) ∧
  decodeWord 0x5AB1#16 = .unknownOpcode 0x5AB1#16 ∧ decodeWord 0xF175#16 = .unknownOpcode 0xF175#16

/-! ### The tick -/

/-- Where the two bytes at `pc` exist and decode, the tick is the execution of that instruction with `pc` advanced by
2 before it, the report beginning as `Ok` (40_cycle.md section 1; the byte order is the spec's decision D1, log 12;
the report is the model's own field, log 8). -/
def Obligations.StepExecutesDecodedInstruction : Prop :=
  ∀ (s : State) (i : Instr), s.pc.toNat ≤ 0xFFE →
    decodeWord (wordOfBytes (s.mem.read s.pc.toNat) (s.mem.read (s.pc.toNat + 1))) = .instr i →
    step s = exec i { s with pc := s.pc + 2#16, report := .ok }

/-- A fetch at 0xFFF or above takes `MemoryRange` of the first address out of range, with word 0 and `pc` not
advanced (the spec's decisions D3, D23, D24; log 7). -/
def Obligations.FetchOutOfRangeTakesFault : Prop :=
  ∀ s : State, 0xFFF ≤ s.pc.toNat → ∃ t, step s = .next t ∧
    TakesFault { code := .memoryRange, word := 0x0000#16, addr := max s.pc.toNat 0x1000 } s t

/-- A word that is no instruction takes `UnknownOpcode` with the word and its address; `pc` is past it and nothing
else has changed (the spec's decisions D23, D24; log 7). -/
def Obligations.UnknownOpcodeTakesFault : Prop :=
  ∀ (s : State) (w : Word), s.pc.toNat ≤ 0xFFE →
    w = wordOfBytes (s.mem.read s.pc.toNat) (s.mem.read (s.pc.toNat + 1)) → decodeWord w = .unknownOpcode w →
    ∃ t, step s = .next t ∧ t.pc = s.pc + 2#16 ∧
      t.fault = some (s.fault.getD { code := .unknownOpcode, word := w, addr := s.pc.toNat }) ∧
      t.report = .fault { code := .unknownOpcode, word := w, addr := s.pc.toNat } ∧
      ChangesOnly (fun p => p = .pc ∨ p = .fault ∨ p = .report) s t

/-- Every tick from every state ends in a state: nothing blocks, nothing stops the core, faults included (40_cycle.md
sections 1 and 2, decision D23; log 7). -/
def Obligations.EveryTickAnswersAState : Prop :=
  ∀ s : State, ∃ t, step s = .next t

/-- `FAULT` changes in a tick only by receiving the fault the tick reports, and only if it was none (decision D23,
log 7, log 8). -/
def Obligations.TickRecordsTheFirstFault : Prop :=
  ∀ s t : State, step s = .next t →
    (t.report = .ok → t.fault = s.fault) ∧ (∀ r, t.report = .fault r → t.fault = some (s.fault.getD r))

/-- A recorded fault stays through any run of the driver's moves that has no reset in it (decision D23, log 7). -/
def Obligations.FaultSurvivesRunsWithoutReset : Prop :=
  ∀ (moves : List Move) (s t : State) (r : FaultRecord),
    (∀ rom font seed, Move.reset rom font seed ∉ moves) → drive s moves = .next t → s.fault = some r →
    t.fault = some r

/-- A tick that reports a fault leaves everything but `pc`, `FAULT` and the report as it was, and `pc` where it was on
a fetch fault and past the word on any other (the spec's decision D24; log 7). -/
def Obligations.FaultedTickIsPrecise : Prop :=
  ∀ (s t : State) (r : FaultRecord), step s = .next t → t.report = .fault r →
    t.pc = (if 0xFFF ≤ s.pc.toNat then s.pc else s.pc + 2#16) ∧
    ChangesOnly (fun p => p = .pc ∨ p = .fault ∨ p = .report) s t

/-- The record a tick reports holds the word at `pc`, or 0 where the fetch itself failed (the spec's decision D23; the
model takes the word from the instruction, log 9). -/
def Obligations.ReportedWordIsTheFetchedWord : Prop :=
  ∀ (s t : State) (r : FaultRecord), step s = .next t → t.report = .fault r →
    r.word = if 0xFFF ≤ s.pc.toNat then 0x0000#16
      else wordOfBytes (s.mem.read s.pc.toNat) (s.mem.read (s.pc.toNat + 1))

/-- A tick at a jump to itself leaves the whole state as it is (40_cycle.md section 3, derived there). -/
def Obligations.SelfJumpIsAFixedPoint : Prop :=
  ∀ (s : State) (nnn : Addr12), s.pc.toNat ≤ 0xFFE → s.pc = zext16 nnn → s.report = .ok →
    decodeWord (wordOfBytes (s.mem.read s.pc.toNat) (s.mem.read (s.pc.toNat + 1))) = .instr (.jp nnn) →
    step s = .next s

/-- A tick at a wait for a key with no key held leaves the whole state as it is (41_control_flow.md, decision D16). -/
def Obligations.WaitingTickIsAFixedPoint : Prop :=
  ∀ (s : State) (x : Reg), s.pc.toNat ≤ 0xFFE → (∀ k < 16, s.keyHeld k = false) → s.report = .ok →
    decodeWord (wordOfBytes (s.mem.read s.pc.toNat) (s.mem.read (s.pc.toNat + 1))) = .instr (.ldVxK x) →
    step s = .next s

/-! ### The invariant, and reset -/

/-- Every tick keeps the invariant: memory canonical, the stack within its capacity and holding only addresses `pc`
had, `pc` at most 0x10FE, every fault record legal (10_state.md section 3, derived there). -/
def Obligations.StepKeepsInvariant : Prop :=
  ∀ s t : State, s.Inv → step s = .next t → t.Inv

/-- The state after reset meets the invariant. -/
def Obligations.ResetMeetsInvariant : Prop := State.reset.Inv

/-- Every move of the driver keeps the invariant, a successful reset with any ROM, font table and seed included; and no
move, from any state, changes the machine's `STACK_DEPTH` (00_scope.md section 3; that the state carries the parameter
is log 3). -/
def Obligations.DriverMovesKeepInvariant : Prop :=
  (∀ (s t : State) (move : Move), s.Inv → move.apply s = .next t → t.Inv) ∧
  ∀ (s t : State) (move : Move), move.apply s = .next t → t.stackDepth = s.stackDepth

/-- The state after reset: `pc` at 0x200 as the source says; memory the default font (decision D14, log 4) and 0x00;
every other value the spec's own choice (decision D13, log 1); `STACK_DEPTH` the default (decision D6, log 3). `rng` is
left out, since its value is free (log 2). -/
def Obligations.ResetState : Prop :=
  (∃ h, State.reset.stackDepth = .bounded 16 h) ∧
  State.reset.pc = 0x0200#16 ∧ (∀ r, State.reset.getV r = 0x00#8) ∧ State.reset.i = 0x0000#16 ∧
  State.reset.stack = [] ∧ State.reset.dt = 0x00#8 ∧ State.reset.st = 0x00#8 ∧ State.reset.fault = none ∧
  (∀ x y, State.reset.disp.pixel x y = false) ∧ (∀ k, State.reset.keyHeld k = false) ∧
  (∀ a < 512, State.reset.mem.read a = Parameters.fontTable.getD a 0x00#8) ∧
  (∀ a, 512 ≤ a → State.reset.mem.read a = 0x00#8)

/-- A reset whose ROM and font table are supplied in full and fit leaves the font at 0x000, the ROM at 0x200, 0x00
elsewhere, the seed in `rng`, the machine's `STACK_DEPTH` whatever it is, and every other part as the spec chose
(decisions D6, D13, D14, D15; log 1, log 2, log 3). -/
def Obligations.ResetMovePlacesFontAndRom : Prop :=
  ∀ (depth : Config.StackDepth) (rom font : List Byte) (seed : Nat), rom.length ≤ 3584 → font.length = 512 →
    ∃ t, State.resetWith depth (some rom) (some font) seed = .next t ∧
      (∀ a, t.mem.read a = if a < 512 then font.getD a 0x00#8 else rom.getD (a - 512) 0x00#8) ∧
      t.rng = seed ∧ t.stackDepth = depth ∧
      ChangesOnly (fun p => p = .rng ∨ p = .stackDepth ∨ ∃ a, p = .byte a) State.reset t

/-- A reset fails exactly when the ROM or the font table is not supplied in full or the ROM does not fit (decision
D14, log 15). -/
def Obligations.LoadFailureExactly : Prop :=
  ∀ (depth : Config.StackDepth) (rom font : Option (List Byte)) (seed : Nat),
    State.resetWith depth rom font seed = .fault .loadFailure ↔
      ¬ ∃ r f, rom = some r ∧ font = some f ∧ r.length ≤ 3584 ∧ f.length = 512

/-! ### Rules of the whole machine -/

/-- R39: no instruction writes the keypad, and a move that leaves another keypad is a key event of the driver, or a
reset. -/
def Obligations.KeysChangeOnlyByKeyEvents : Prop :=
  (∀ (i : Instr) (s t : State), exec i s = .next t → t.key = s.key) ∧
  ∀ (s t : State) (move : Move), move.apply s = .next t → t.key ≠ s.key →
    (∃ k held, move = .keyEvent k held) ∨ ∃ rom font seed, move = .reset rom font seed

/-- R204: a move that leaves another display is a tick that executes `CLS` or `DRW`, or a reset. -/
def Obligations.DisplayChangesOnlyByClsAndDrw : Prop :=
  ∀ (s t : State) (move : Move), move.apply s = .next t → t.disp ≠ s.disp →
    (move = .tick ∧ ∃ u, s.beginTick = .execute .cls u ∨ ∃ x y n, s.beginTick = .execute (.drw x y n) u) ∨
    ∃ rom font seed, move = .reset rom font seed

/-- Which instruction writes which part beside the `V` registers: memory `LD B` and `LD [I]`; `I` its three; the stack
`CALL` and `RET`; `rng` `RND`; `DT` and `ST` their writes; nothing else does (20_memory.md section 1, 10_state.md
sections 2, 4, 5, 6, decisions D11, D15, D21). -/
def Obligations.PartsHaveTheirWriters : Prop :=
  ∀ (i : Instr) (s t : State), exec i s = .next t →
    (t.mem ≠ s.mem → ∃ x, i = .ldBVx x ∨ i = .storeRegs x) ∧
    (t.i ≠ s.i → ∃ x nnn, i = .ldI nnn ∨ i = .addIVx x ∨ i = .ldFVx x) ∧
    (t.stack ≠ s.stack → ∃ nnn, i = .call nnn ∨ i = .ret) ∧
    ((∀ x nn, i ≠ .rnd x nn) → t.rng = s.rng) ∧
    (t.dt ≠ s.dt → ∃ x, i = .ldDtVx x) ∧
    (t.st ≠ s.st → ∃ x, i = .ldStVx x)

/-- Which instructions leave `pc` elsewhere than the fetch put it: the jumps, the call, the return, the skips and the
wait for a key (10_state.md section 3). -/
def Obligations.PcHasItsWriters : Prop :=
  ∀ (i : Instr) (s t : State), exec i s = .next t → t.pc ≠ s.pc →
    ∃ (x y : Reg) (nn : Byte) (nnn : Addr12), i ∈ ([.ret, .jp nnn, .call nnn, .jpV0 nnn, .seImm x nn, .sneImm x nn,
      .seReg x y, .sneReg x y, .skp x, .sknp x, .ldVxK x] : List Instr)

/-- A `V` register changes only where the instruction names it as a destination, or where it is `VF` and the
instruction is one of the six that write the flag (10_state.md section 1). -/
def Obligations.RegistersHaveTheirWriters : Prop :=
  ∀ (i : Instr) (s t : State) (r : Reg), exec i s = .next t → t.getV r ≠ s.getV r →
    namesDestination r i = true ∨ (r = VF ∧ writesFlag i = true)

/-- The six leave 0 or 1 in `VF`, never another value, whatever their operands alias, but for a `DRW` ended by
`MemoryRange` (10_state.md section 1, decision D26; the exception is decision D24). -/
def Obligations.FlagIsZeroOrOne : Prop :=
  ∀ (i : Instr) (s t : State), writesFlag i = true → exec i s = .next t →
    t.getV VF = 0x00#8 ∨ t.getV VF = 0x01#8 ∨
      ∃ x y n, i = .drw x y n ∧ n ≠ 0x0#4 ∧ 0x1000 < s.dataAddress 0 + n.toNat

/-- No instruction reads `ST` or `FAULT`, nor the model's own report (log 8): two runs of one instruction that differ
in these alone end in states that differ in these alone (10_state.md sections 5 and 9, decisions D11, D23). -/
def Obligations.UnreadPartsAreInvisible : Prop :=
  ∀ (i : Instr) (s t : State) (st : Byte) (fault : Option FaultRecord) (report : TickReport), exec i s = .next t →
    ∃ u, exec i { s with st := st, fault := fault, report := report } = .next u ∧
      u = { t with st := u.st, fault := u.fault, report := u.report }

/-- `rng` is read by `RND` only: any other instruction does the same whatever `rng` is (10_state.md section 6,
decision D15). -/
def Obligations.RngIsReadByRndOnly : Prop :=
  ∀ (i : Instr) (s t : State) (rng : Nat), (∀ x nn, i ≠ .rnd x nn) → exec i s = .next t →
    exec i { s with rng := rng } = .next { t with rng := rng }

/-! ### Control flow -/

/-- `SYS NNN` has no effect, whatever its field (the spec's decision D7, log 10). -/
def Obligations.SysHasNoEffect : Prop :=
  ∀ (nnn : Addr12) (s : State), ∃ t, exec (.sys nnn) s = .next t ∧ t = s

/-- R131: `RET` pops the top of the stack into `pc`, unmasked and unchecked; on an empty stack it does nothing. -/
def Obligations.RetPopsIntoPc : Prop :=
  (∀ (s : State) (rest : List Word) (v : Word), s.stack = rest ++ [v] →
    ∃ t, exec .ret s = .next t ∧ t.pc = v ∧ t.stack = rest ∧ ChangesOnly (fun p => p = .pc ∨ p = .stack) s t) ∧
  ∀ s : State, s.stack = [] → exec .ret s = .next s

/-- R132: `JP NNN` sets `pc` to the zero-extended 12-bit address, any of the 4096, and changes nothing else. -/
def Obligations.JpSetsPc : Prop :=
  ∀ (nnn : Addr12) (s : State), ∃ t, exec (.jp nnn) s = .next t ∧ t.pc.toNat = nnn.toNat ∧
    ChangesOnly (fun p => p = .pc) s t

/-- `CALL NNN` pushes the advanced `pc`, then jumps, whenever the stack is unbounded or its depth is not `STACK_DEPTH`;
when it is, `CALL` takes StackOverflow of the return address, the stack and `pc` as they were (41_control_flow.md; the
bound and its fault are the spec's decisions D6, D23, D24, log 3, log 7). -/
def Obligations.CallPushesAndJumps : Prop :=
  ∀ (nnn : Addr12) (s : State),
    (s.stackDepth = .unbounded ∨ (∃ n h, s.stackDepth = .bounded n h ∧ s.stack.length ≠ n) →
      ∃ t, exec (.call nnn) s = .next t ∧ t.stack = s.stack ++ [s.pc] ∧ t.pc.toNat = nnn.toNat ∧
        ChangesOnly (fun p => p = .pc ∨ p = .stack) s t) ∧
    ((∃ n h, s.stackDepth = .bounded n h ∧ s.stack.length = n) →
      ∃ t, exec (.call nnn) s = .next t ∧
        TakesFault { code := .stackOverflow, word := encode (.call nnn), addr := s.pc.toNat } s t)

/-- R134: `JP V0, NNN` sets `pc` to the address plus `V[0]`, reduced neither to 12 bits nor by a wrap. -/
def Obligations.JpV0AddsV0 : Prop :=
  ∀ (nnn : Addr12) (s : State), ∃ t, exec (.jpV0 nnn) s = .next t ∧
    t.pc.toNat = nnn.toNat + (s.getV 0x0#4).toNat ∧ ChangesOnly (fun p => p = .pc) s t

/-- R135 to R138: the four compare skips add 2 to `pc`, modulo 65536, exactly when their condition holds, and change
nothing else. -/
def Obligations.CompareSkipsAddTwo : Prop :=
  ∀ (x y : Reg) (nn : Byte) (s : State),
    (∃ t, exec (.seImm x nn) s = .next t ∧ ChangesOnly (fun p => p = .pc) s t ∧
      t.pc.toNat = if s.getV x = nn then (s.pc.toNat + 2) % 65536 else s.pc.toNat) ∧
    (∃ t, exec (.sneImm x nn) s = .next t ∧ ChangesOnly (fun p => p = .pc) s t ∧
      t.pc.toNat = if s.getV x ≠ nn then (s.pc.toNat + 2) % 65536 else s.pc.toNat) ∧
    (∃ t, exec (.seReg x y) s = .next t ∧ ChangesOnly (fun p => p = .pc) s t ∧
      t.pc.toNat = if s.getV x = s.getV y then (s.pc.toNat + 2) % 65536 else s.pc.toNat) ∧
    (∃ t, exec (.sneReg x y) s = .next t ∧ ChangesOnly (fun p => p = .pc) s t ∧
      t.pc.toNat = if s.getV x ≠ s.getV y then (s.pc.toNat + 2) % 65536 else s.pc.toNat)

/-- R206 to R208: the key skips test the key that the low nibble of `V[x]` names, add 2 to `pc` when it is held (not
held), and change nothing else. -/
def Obligations.KeySkipsTestLowNibble : Prop :=
  ∀ (x : Reg) (s : State),
    (∃ t, exec (.skp x) s = .next t ∧ ChangesOnly (fun p => p = .pc) s t ∧
      t.pc.toNat = if s.keyHeld ((s.getV x).toNat % 16) = true then (s.pc.toNat + 2) % 65536 else s.pc.toNat) ∧
    (∃ t, exec (.sknp x) s = .next t ∧ ChangesOnly (fun p => p = .pc) s t ∧
      t.pc.toNat = if s.keyHeld ((s.getV x).toNat % 16) = false then (s.pc.toNat + 2) % 65536 else s.pc.toNat)

/-- `LD Vx, K`: the least held key goes to `V[x]`; with no key held `pc` steps back by 2, modulo 65536 (41_control_flow.md
and decision D16, log 16). -/
def Obligations.WaitForKeyTakesLeastHeld : Prop :=
  ∀ (x : Reg) (s : State),
    (∀ k < 16, s.keyHeld k = true → (∀ j < k, s.keyHeld j = false) →
      ∃ t, exec (.ldVxK x) s = .next t ∧ (t.getV x).toNat = k ∧ ChangesOnly (fun p => p = .reg x) s t) ∧
    ((∀ k < 16, s.keyHeld k = false) →
      ∃ t, exec (.ldVxK x) s = .next t ∧ t.pc.toNat = (s.pc.toNat + 65534) % 65536 ∧
        ChangesOnly (fun p => p = .pc) s t)

/-- A call and a return, at whatever address the return stands, restore `pc` and everything else (41_control_flow.md). -/
def Obligations.ReturnUndoesCall : Prop :=
  ∀ (nnn : Addr12) (s t : State) (at_ : Word), stackIsFull s.stackDepth s.stack.length = false →
    exec (.call nnn) s = .next t → exec .ret { t with pc := at_ } = .next s

/-! ### Registers -/

/-- `LD Vx, NN` and `LD I, NNN` load their constants (both supplied by the spec from general knowledge, decision D10,
log 12). -/
def Obligations.LoadConstants : Prop :=
  (∀ (x : Reg) (nn : Byte) (s : State), ∃ t, exec (.ldImm x nn) s = .next t ∧ t.getV x = nn ∧
    ChangesOnly (fun p => p = .reg x) s t) ∧
  ∀ (nnn : Addr12) (s : State), ∃ t, exec (.ldI nnn) s = .next t ∧ t.i.toNat = nnn.toNat ∧
    ChangesOnly (fun p => p = .i) s t

/-- R151: `ADD Vx, NN` adds modulo 256 and records no carry; `VF` is a plain register to it. -/
def Obligations.AddImmediateWraps : Prop :=
  ∀ (x : Reg) (nn : Byte) (s : State), ∃ t, exec (.addImm x nn) s = .next t ∧
    (t.getV x).toNat = ((s.getV x).toNat + nn.toNat) % 256 ∧ ChangesOnly (fun p => p = .reg x) s t

/-- R152 to R155: copy, OR, AND and XOR write `V[x]` alone, `VF` included among what they leave. -/
def Obligations.CopyAndLogicWriteVxOnly : Prop :=
  ∀ (x y : Reg) (s : State),
    (∃ t, exec (.ldReg x y) s = .next t ∧ t.getV x = s.getV y ∧ ChangesOnly (fun p => p = .reg x) s t) ∧
    (∃ t, exec (.orReg x y) s = .next t ∧ t.getV x = s.getV x ||| s.getV y ∧
      ChangesOnly (fun p => p = .reg x) s t) ∧
    (∃ t, exec (.andReg x y) s = .next t ∧ t.getV x = s.getV x &&& s.getV y ∧
      ChangesOnly (fun p => p = .reg x) s t) ∧
    (∃ t, exec (.xorReg x y) s = .next t ∧ t.getV x = s.getV x ^^^ s.getV y ∧
      ChangesOnly (fun p => p = .reg x) s t)

/-- R156: `ADD Vx, Vy` leaves the carry of the unbounded sum in `VF`, and the sum modulo 256 in `V[x]` unless `x` is
15. -/
def Obligations.AddRegistersCarry : Prop :=
  ∀ (x y : Reg) (s : State), ∃ t, exec (.addReg x y) s = .next t ∧
    (x ≠ VF → (t.getV x).toNat = ((s.getV x).toNat + (s.getV y).toNat) % 256) ∧
    (t.getV VF).toNat = (if (s.getV x).toNat + (s.getV y).toNat > 255 then 1 else 0) ∧
    ChangesOnly (fun p => p = .reg x ∨ p = .reg VF) s t

/-- R157 and R159: `SUB` and `SUBN` leave the difference modulo 256 in `V[x]` unless `x` is 15, and in `VF` 1 exactly
when the minuend is at least the subtrahend. -/
def Obligations.SubtractsInvertBorrow : Prop :=
  ∀ (x y : Reg) (s : State),
    (∃ t, exec (.sub x y) s = .next t ∧
      (x ≠ VF → (t.getV x).toNat = ((s.getV x).toNat + 256 - (s.getV y).toNat) % 256) ∧
      (t.getV VF).toNat = (if (s.getV x).toNat ≥ (s.getV y).toNat then 1 else 0) ∧
      ChangesOnly (fun p => p = .reg x ∨ p = .reg VF) s t) ∧
    (∃ t, exec (.subn x y) s = .next t ∧
      (x ≠ VF → (t.getV x).toNat = ((s.getV y).toNat + 256 - (s.getV x).toNat) % 256) ∧
      (t.getV VF).toNat = (if (s.getV y).toNat ≥ (s.getV x).toNat then 1 else 0) ∧
      ChangesOnly (fun p => p = .reg x ∨ p = .reg VF) s t)

/-- R158 and R160: the shifts move `V[x]` by one place, zero filled, leave the bit that went out in `VF`, and do the
same for every `y`. -/
def Obligations.ShiftsIgnoreVy : Prop :=
  ∀ (x y : Reg) (s : State),
    (∃ t, exec (.shr x y) s = .next t ∧ (x ≠ VF → (t.getV x).toNat = (s.getV x).toNat / 2) ∧
      (t.getV VF).toNat = (s.getV x).toNat % 2 ∧ ChangesOnly (fun p => p = .reg x ∨ p = .reg VF) s t ∧
      ∀ z, exec (.shr x z) s = .next t) ∧
    (∃ t, exec (.shl x y) s = .next t ∧ (x ≠ VF → (t.getV x).toNat = 2 * (s.getV x).toNat % 256) ∧
      (t.getV VF).toNat = (s.getV x).toNat / 128 ∧ ChangesOnly (fun p => p = .reg x ∨ p = .reg VF) s t ∧
      ∀ z, exec (.shl x z) s = .next t)

/-- `RND Vx, NN` draws exactly one byte, whatever `NN` is, and leaves it masked in `V[x]` (42_alu.md section 4; the
random source is the spec's decision D15). The byte is the free value `Config.rngNext`: this holds for every one
(log 2). -/
def Obligations.RndDrawsOneByteAndMasks : Prop :=
  ∀ (x : Reg) (nn : Byte) (s : State), ∃ t, exec (.rnd x nn) s = .next t ∧
    t.getV x = (Config.rngNext s.rng).1 &&& nn ∧ t.rng = (Config.rngNext s.rng).2 ∧
    ChangesOnly (fun p => p = .reg x ∨ p = .rng) s t

/-! ### Index, memory, timers -/

/-- R181: `ADD I, Vx` adds modulo 65536 and touches no flag. -/
def Obligations.AddIndexWraps : Prop :=
  ∀ (x : Reg) (s : State), ∃ t, exec (.addIVx x) s = .next t ∧
    t.i.toNat = (s.i.toNat + (s.getV x).toNat) % 65536 ∧ ChangesOnly (fun p => p = .i) s t

/-- `LD F, Vx` leaves five times the whole byte in `I` (the spec's decision D22, log 16). -/
def Obligations.FontAddressIsFiveTimes : Prop :=
  ∀ (x : Reg) (s : State), ∃ t, exec (.ldFVx x) s = .next t ∧ t.i.toNat = 5 * (s.getV x).toNat ∧
    ChangesOnly (fun p => p = .i) s t

/-- `LD B, Vx` stores the three decimal digits of `V[x]` at `I`, `I + 1` and `I + 2`, the hundreds first; where one of
the addresses does not exist it takes `MemoryRange` and stores nothing (43_index_memory_timers.md section 2; the fault
is the spec's decisions D3, D23, D24, log 7, log 9). -/
def Obligations.BcdStoresThreeDigits : Prop :=
  ∀ (x : Reg) (s : State),
    (s.dataAddress 2 < 0x1000 → ∃ t, exec (.ldBVx x) s = .next t ∧
      (t.mem.read (s.dataAddress 0)).toNat = (s.getV x).toNat / 100 ∧
      (t.mem.read (s.dataAddress 1)).toNat = (s.getV x).toNat / 10 % 10 ∧
      (t.mem.read (s.dataAddress 2)).toNat = (s.getV x).toNat % 10 ∧
      ChangesOnly (fun p => ∃ k < 3, p = .byte (s.dataAddress k)) s t) ∧
    (0x1000 ≤ s.dataAddress 2 → ∃ t, exec (.ldBVx x) s = .next t ∧
      TakesFault { code := .memoryRange, word := encode (.ldBVx x), addr := max s.i.toNat 0x1000 } s t)

/-- `LD [I], Vx` stores `V[0]..V[x]` from `I` on and nothing else; where one of the addresses does not exist it takes
`MemoryRange` and stores nothing (43_index_memory_timers.md section 2; the fault is the spec's decisions D3, D23, D24,
log 7, log 9). -/
def Obligations.StoreRegistersFromIndex : Prop :=
  ∀ (x : Reg) (s : State),
    (s.dataAddress x.toNat < 0x1000 → ∃ t, exec (.storeRegs x) s = .next t ∧
      (∀ j : Reg, j.toNat ≤ x.toNat → t.mem.read (s.dataAddress j.toNat) = s.getV j) ∧
      ChangesOnly (fun p => ∃ k ≤ x.toNat, p = .byte (s.dataAddress k)) s t) ∧
    (0x1000 ≤ s.dataAddress x.toNat → ∃ t, exec (.storeRegs x) s = .next t ∧
      TakesFault { code := .memoryRange, word := encode (.storeRegs x), addr := max s.i.toNat 0x1000 } s t)

/-- `LD Vx, [I]` loads `V[0]..V[x]` from `I` on and changes nothing else; where one of the addresses does not exist it
takes `MemoryRange` and loads nothing (43_index_memory_timers.md section 2; the fault is the spec's decisions D3, D23,
D24, log 7, log 9). -/
def Obligations.LoadRegistersFromIndex : Prop :=
  ∀ (x : Reg) (s : State),
    (s.dataAddress x.toNat < 0x1000 → ∃ t, exec (.loadRegs x) s = .next t ∧
      (∀ j : Reg, j.toNat ≤ x.toNat → t.getV j = s.mem.read (s.dataAddress j.toNat)) ∧
      ChangesOnly (fun p => ∃ j : Reg, j.toNat ≤ x.toNat ∧ p = .reg j) s t) ∧
    (0x1000 ≤ s.dataAddress x.toNat → ∃ t, exec (.loadRegs x) s = .next t ∧
      TakesFault { code := .memoryRange, word := encode (.loadRegs x), addr := max s.i.toNat 0x1000 } s t)

/-- The source's round trip: after a store of `V[0]..V[k]`, whatever then happens to the registers, the load of
`V[0]..V[k]` restores them (43_index_memory_timers.md section 2; it needs `I` unchanged by the store, D21). -/
def Obligations.LoadUndoesStore : Prop :=
  ∀ (k : Reg) (s t : State) (v : Vector Byte 16), s.dataAddress k.toNat < 0x1000 →
    exec (.storeRegs k) s = .next t → ∃ u, exec (.loadRegs k) { t with v := v } = .next u ∧
      (∀ j : Reg, j.toNat ≤ k.toNat → u.getV j = s.getV j) ∧
      ∀ j : Reg, k.toNat < j.toNat → u.getV j = v.get j.toFin

/-- Self-modifying code: the tick after a store that wrote the word at `pc` executes the stored word, high byte from
the lower-numbered register (20_memory.md sections 4 and 5, derived there; byte order D1). -/
def Obligations.StoredWordIsExecutedNext : Prop :=
  ∀ (x j : Reg) (s t : State) (i : Instr), s.dataAddress x.toNat < 0x1000 → j.toNat + 1 ≤ x.toNat →
    exec (.storeRegs x) s = .next t → t.pc.toNat = s.dataAddress j.toNat →
    decodeWord (wordOfBytes (s.getV j) (s.getV (j + 1))) = .instr i →
    step t = exec i { t with pc := t.pc + 2#16, report := .ok }

/-- R187, R189 and R190: the timer instructions move one byte, from `DT`, to `DT`, to `ST`. -/
def Obligations.TimerInstructionsMoveOneByte : Prop :=
  ∀ (x : Reg) (s : State),
    (∃ t, exec (.ldVxDt x) s = .next t ∧ t.getV x = s.dt ∧ ChangesOnly (fun p => p = .reg x) s t) ∧
    (∃ t, exec (.ldDtVx x) s = .next t ∧ t.dt = s.getV x ∧ ChangesOnly (fun p => p = .dt) s t) ∧
    (∃ t, exec (.ldStVx x) s = .next t ∧ t.st = s.getV x ∧ ChangesOnly (fun p => p = .st) s t)

/-- Two canonical memories whose every byte reads the same are the same data (the model's own form, log 5). -/
def Obligations.CanonicalMemoryIsDeterminedByItsBytes : Prop :=
  ∀ m n : Memory, m.wf = true → n.wf = true → (∀ a, m.read a = n.read a) → m = n

/-! ### Display -/

/-- R200: `CLS` clears all 64 by 32 pixels and changes nothing else, `VF` included. -/
def Obligations.ClsClearsEveryPixel : Prop :=
  ∀ s : State, ∃ t, exec .cls s = .next t ∧ (∀ x y, t.disp.pixel x y = false) ∧
    ChangesOnly (fun p => ∃ x y, p = .pixel x y) s t

/-- `DRW`: every pixel is XORed with the sprite bit that lands on it, `VF` is 1 exactly when one of them was set, and
nothing else changes; with no rows, or every row's byte there, it draws. That the operands are read before `VF` is
written and that clipped rows are read too are the spec's decisions D18 and D19, the bit order D2 (log 12, log 16). -/
def Obligations.DrawXorsAndReportsCollision : Prop :=
  ∀ (x y : Reg) (n : Nibble) (s : State), n = 0x0#4 ∨ s.dataAddress 0 + n.toNat ≤ 0x1000 →
    ∃ t, exec (.drw x y n) s = .next t ∧
      (∀ a b, t.disp.pixel a b = (s.disp.pixel a b ^^ spriteBit s x y n a b)) ∧
      (t.getV VF = 0x01#8 ↔ ∃ a b, s.disp.pixel a b = true ∧ spriteBit s x y n a b = true) ∧
      (t.getV VF = 0x00#8 ∨ t.getV VF = 0x01#8) ∧
      ChangesOnly (fun p => p = .reg VF ∨ ∃ a b, p = .pixel a b) s t

/-- `DRW` with a sprite byte at 4096 or above takes `MemoryRange`, `VF` and the display as they were (the spec's
decisions D3, D19, D24; log 7). -/
def Obligations.DrawOutOfRangeTakesFault : Prop :=
  ∀ (x y : Reg) (n : Nibble) (s : State), n ≠ 0x0#4 → 0x1000 < s.dataAddress 0 + n.toNat →
    ∃ t, exec (.drw x y n) s = .next t ∧
      TakesFault { code := .memoryRange, word := encode (.drw x y n), addr := max s.i.toNat 0x1000 } s t

/-- The same sprite drawn twice at one place (neither coordinate is `VF`, which the first draw writes) restores the
display, and the second draw reports a collision exactly when a set bit of the sprite landed on a pixel that was clear
before the first: on a clear display, when the sprite has a set bit inside it (a corner case of 44_display_input.md
section 2; log 16). -/
def Obligations.SecondDrawUndoesFirst : Prop :=
  ∀ (x y : Reg) (n : Nibble) (s t : State), x ≠ VF → y ≠ VF → n = 0x0#4 ∨ s.dataAddress 0 + n.toNat ≤ 0x1000 →
    exec (.drw x y n) s = .next t → ∃ u, exec (.drw x y n) t = .next u ∧ u.disp = s.disp ∧
      (u.getV VF = 0x01#8 ↔ ∃ a b, s.disp.pixel a b = false ∧ spriteBit s x y n a b = true)

/-! ### The driver's other moves -/

/-- KeyEvent sets one key and TimerDec takes one from each timer that is not 0 (decisions D12, D17; log 17). -/
def Obligations.KeyEventAndTimerDec : Prop :=
  ∀ s : State,
    (∀ (k : Fin 16) (held : Bool), ∃ t, Move.apply s (.keyEvent k held) = .next t ∧ t.keyHeld k.val = held ∧
      ChangesOnly (fun p => p = .key k.val) s t) ∧
    ∃ t, Move.apply s .timerDec = .next t ∧ t.dt.toNat = s.dt.toNat - 1 ∧ t.st.toNat = s.st.toNat - 1 ∧
      ChangesOnly (fun p => p = .dt ∨ p = .st) s t
end

