-- ==== Sys2Proof/Laws/State.lean ====
section
/-! SUPPORT. One lemma per field per update of the state, true by rfl, and the register file's read-after-write
laws. -/

namespace Sys2Proof.Machine

open Sys2Proof

/-! ### setV -/

@[simp] theorem State.setV_i (s : State) (x : Reg) (b : Byte) : (s.setV x b).i = s.i := rfl
@[simp] theorem State.setV_pc (s : State) (x : Reg) (b : Byte) : (s.setV x b).pc = s.pc := rfl
@[simp] theorem State.setV_stack (s : State) (x : Reg) (b : Byte) : (s.setV x b).stack = s.stack := rfl
@[simp] theorem State.setV_dt (s : State) (x : Reg) (b : Byte) : (s.setV x b).dt = s.dt := rfl
@[simp] theorem State.setV_st (s : State) (x : Reg) (b : Byte) : (s.setV x b).st = s.st := rfl
@[simp] theorem State.setV_rng (s : State) (x : Reg) (b : Byte) : (s.setV x b).rng = s.rng := rfl
@[simp] theorem State.setV_stackDepth (s : State) (x : Reg) (b : Byte) : (s.setV x b).stackDepth = s.stackDepth := rfl
@[simp] theorem State.setV_mem (s : State) (x : Reg) (b : Byte) : (s.setV x b).mem = s.mem := rfl
@[simp] theorem State.setV_disp (s : State) (x : Reg) (b : Byte) : (s.setV x b).disp = s.disp := rfl
@[simp] theorem State.setV_key (s : State) (x : Reg) (b : Byte) : (s.setV x b).key = s.key := rfl
@[simp] theorem State.setV_fault (s : State) (x : Reg) (b : Byte) : (s.setV x b).fault = s.fault := rfl
@[simp] theorem State.setV_report (s : State) (x : Reg) (b : Byte) : (s.setV x b).report = s.report := rfl

/-! ### jump -/

@[simp] theorem State.jump_v (s : State) (p : Word) : (s.jump p).v = s.v := rfl
@[simp] theorem State.jump_i (s : State) (p : Word) : (s.jump p).i = s.i := rfl
@[simp] theorem State.jump_stack (s : State) (p : Word) : (s.jump p).stack = s.stack := rfl
@[simp] theorem State.jump_dt (s : State) (p : Word) : (s.jump p).dt = s.dt := rfl
@[simp] theorem State.jump_st (s : State) (p : Word) : (s.jump p).st = s.st := rfl
@[simp] theorem State.jump_rng (s : State) (p : Word) : (s.jump p).rng = s.rng := rfl
@[simp] theorem State.jump_stackDepth (s : State) (p : Word) : (s.jump p).stackDepth = s.stackDepth := rfl
@[simp] theorem State.jump_mem (s : State) (p : Word) : (s.jump p).mem = s.mem := rfl
@[simp] theorem State.jump_disp (s : State) (p : Word) : (s.jump p).disp = s.disp := rfl
@[simp] theorem State.jump_key (s : State) (p : Word) : (s.jump p).key = s.key := rfl
@[simp] theorem State.jump_fault (s : State) (p : Word) : (s.jump p).fault = s.fault := rfl
@[simp] theorem State.jump_report (s : State) (p : Word) : (s.jump p).report = s.report := rfl

/-! ### stepBack -/

@[simp] theorem State.stepBack_v (s : State) : (s.stepBack).v = s.v := rfl
@[simp] theorem State.stepBack_i (s : State) : (s.stepBack).i = s.i := rfl
@[simp] theorem State.stepBack_stack (s : State) : (s.stepBack).stack = s.stack := rfl
@[simp] theorem State.stepBack_dt (s : State) : (s.stepBack).dt = s.dt := rfl
@[simp] theorem State.stepBack_st (s : State) : (s.stepBack).st = s.st := rfl
@[simp] theorem State.stepBack_rng (s : State) : (s.stepBack).rng = s.rng := rfl
@[simp] theorem State.stepBack_stackDepth (s : State) : (s.stepBack).stackDepth = s.stackDepth := rfl
@[simp] theorem State.stepBack_mem (s : State) : (s.stepBack).mem = s.mem := rfl
@[simp] theorem State.stepBack_disp (s : State) : (s.stepBack).disp = s.disp := rfl
@[simp] theorem State.stepBack_key (s : State) : (s.stepBack).key = s.key := rfl
@[simp] theorem State.stepBack_fault (s : State) : (s.stepBack).fault = s.fault := rfl
@[simp] theorem State.stepBack_report (s : State) : (s.stepBack).report = s.report := rfl

/-! ### raise -/

@[simp] theorem State.raise_v (s : State) (r : FaultRecord) : (s.raise r).v = s.v := rfl
@[simp] theorem State.raise_i (s : State) (r : FaultRecord) : (s.raise r).i = s.i := rfl
@[simp] theorem State.raise_pc (s : State) (r : FaultRecord) : (s.raise r).pc = s.pc := rfl
@[simp] theorem State.raise_stack (s : State) (r : FaultRecord) : (s.raise r).stack = s.stack := rfl
@[simp] theorem State.raise_dt (s : State) (r : FaultRecord) : (s.raise r).dt = s.dt := rfl
@[simp] theorem State.raise_st (s : State) (r : FaultRecord) : (s.raise r).st = s.st := rfl
@[simp] theorem State.raise_rng (s : State) (r : FaultRecord) : (s.raise r).rng = s.rng := rfl
@[simp] theorem State.raise_stackDepth (s : State) (r : FaultRecord) : (s.raise r).stackDepth = s.stackDepth := rfl
@[simp] theorem State.raise_mem (s : State) (r : FaultRecord) : (s.raise r).mem = s.mem := rfl
@[simp] theorem State.raise_disp (s : State) (r : FaultRecord) : (s.raise r).disp = s.disp := rfl
@[simp] theorem State.raise_key (s : State) (r : FaultRecord) : (s.raise r).key = s.key := rfl

/-! ### setResultAndFlag -/

@[simp] theorem State.setResultAndFlag_i (s : State) (x : Reg) (b : Byte) (c : Bool) : (s.setResultAndFlag x b c).i = s.i := rfl
@[simp] theorem State.setResultAndFlag_pc (s : State) (x : Reg) (b : Byte) (c : Bool) : (s.setResultAndFlag x b c).pc = s.pc := rfl
@[simp] theorem State.setResultAndFlag_stack (s : State) (x : Reg) (b : Byte) (c : Bool) : (s.setResultAndFlag x b c).stack = s.stack := rfl
@[simp] theorem State.setResultAndFlag_dt (s : State) (x : Reg) (b : Byte) (c : Bool) : (s.setResultAndFlag x b c).dt = s.dt := rfl
@[simp] theorem State.setResultAndFlag_st (s : State) (x : Reg) (b : Byte) (c : Bool) : (s.setResultAndFlag x b c).st = s.st := rfl
@[simp] theorem State.setResultAndFlag_rng (s : State) (x : Reg) (b : Byte) (c : Bool) : (s.setResultAndFlag x b c).rng = s.rng := rfl
@[simp] theorem State.setResultAndFlag_stackDepth (s : State) (x : Reg) (b : Byte) (c : Bool) : (s.setResultAndFlag x b c).stackDepth = s.stackDepth := rfl
@[simp] theorem State.setResultAndFlag_mem (s : State) (x : Reg) (b : Byte) (c : Bool) : (s.setResultAndFlag x b c).mem = s.mem := rfl
@[simp] theorem State.setResultAndFlag_disp (s : State) (x : Reg) (b : Byte) (c : Bool) : (s.setResultAndFlag x b c).disp = s.disp := rfl
@[simp] theorem State.setResultAndFlag_key (s : State) (x : Reg) (b : Byte) (c : Bool) : (s.setResultAndFlag x b c).key = s.key := rfl
@[simp] theorem State.setResultAndFlag_fault (s : State) (x : Reg) (b : Byte) (c : Bool) : (s.setResultAndFlag x b c).fault = s.fault := rfl
@[simp] theorem State.setResultAndFlag_report (s : State) (x : Reg) (b : Byte) (c : Bool) : (s.setResultAndFlag x b c).report = s.report := rfl

/-! ### keyEvent -/

@[simp] theorem State.keyEvent_v (s : State) (k : Fin 16) (h : Bool) : (s.keyEvent k h).v = s.v := rfl
@[simp] theorem State.keyEvent_i (s : State) (k : Fin 16) (h : Bool) : (s.keyEvent k h).i = s.i := rfl
@[simp] theorem State.keyEvent_pc (s : State) (k : Fin 16) (h : Bool) : (s.keyEvent k h).pc = s.pc := rfl
@[simp] theorem State.keyEvent_stack (s : State) (k : Fin 16) (h : Bool) : (s.keyEvent k h).stack = s.stack := rfl
@[simp] theorem State.keyEvent_dt (s : State) (k : Fin 16) (h : Bool) : (s.keyEvent k h).dt = s.dt := rfl
@[simp] theorem State.keyEvent_st (s : State) (k : Fin 16) (h : Bool) : (s.keyEvent k h).st = s.st := rfl
@[simp] theorem State.keyEvent_rng (s : State) (k : Fin 16) (h : Bool) : (s.keyEvent k h).rng = s.rng := rfl
@[simp] theorem State.keyEvent_stackDepth (s : State) (k : Fin 16) (h : Bool) : (s.keyEvent k h).stackDepth = s.stackDepth := rfl
@[simp] theorem State.keyEvent_mem (s : State) (k : Fin 16) (h : Bool) : (s.keyEvent k h).mem = s.mem := rfl
@[simp] theorem State.keyEvent_disp (s : State) (k : Fin 16) (h : Bool) : (s.keyEvent k h).disp = s.disp := rfl
@[simp] theorem State.keyEvent_fault (s : State) (k : Fin 16) (h : Bool) : (s.keyEvent k h).fault = s.fault := rfl
@[simp] theorem State.keyEvent_report (s : State) (k : Fin 16) (h : Bool) : (s.keyEvent k h).report = s.report := rfl

/-! ### timerDec -/

@[simp] theorem State.timerDec_v (s : State) : (s.timerDec).v = s.v := rfl
@[simp] theorem State.timerDec_i (s : State) : (s.timerDec).i = s.i := rfl
@[simp] theorem State.timerDec_pc (s : State) : (s.timerDec).pc = s.pc := rfl
@[simp] theorem State.timerDec_stack (s : State) : (s.timerDec).stack = s.stack := rfl
@[simp] theorem State.timerDec_rng (s : State) : (s.timerDec).rng = s.rng := rfl
@[simp] theorem State.timerDec_stackDepth (s : State) : (s.timerDec).stackDepth = s.stackDepth := rfl
@[simp] theorem State.timerDec_mem (s : State) : (s.timerDec).mem = s.mem := rfl
@[simp] theorem State.timerDec_disp (s : State) : (s.timerDec).disp = s.disp := rfl
@[simp] theorem State.timerDec_key (s : State) : (s.timerDec).key = s.key := rfl
@[simp] theorem State.timerDec_fault (s : State) : (s.timerDec).fault = s.fault := rfl
@[simp] theorem State.timerDec_report (s : State) : (s.timerDec).report = s.report := rfl

/-! ### placeWord -/

@[simp] theorem State.placeWord_v (s : State) (w : Word) : (s.placeWord w).v = s.v := rfl
@[simp] theorem State.placeWord_i (s : State) (w : Word) : (s.placeWord w).i = s.i := rfl
@[simp] theorem State.placeWord_pc (s : State) (w : Word) : (s.placeWord w).pc = s.pc := rfl
@[simp] theorem State.placeWord_stack (s : State) (w : Word) : (s.placeWord w).stack = s.stack := rfl
@[simp] theorem State.placeWord_dt (s : State) (w : Word) : (s.placeWord w).dt = s.dt := rfl
@[simp] theorem State.placeWord_st (s : State) (w : Word) : (s.placeWord w).st = s.st := rfl
@[simp] theorem State.placeWord_rng (s : State) (w : Word) : (s.placeWord w).rng = s.rng := rfl
@[simp] theorem State.placeWord_stackDepth (s : State) (w : Word) : (s.placeWord w).stackDepth = s.stackDepth := rfl
@[simp] theorem State.placeWord_disp (s : State) (w : Word) : (s.placeWord w).disp = s.disp := rfl
@[simp] theorem State.placeWord_key (s : State) (w : Word) : (s.placeWord w).key = s.key := rfl
@[simp] theorem State.placeWord_fault (s : State) (w : Word) : (s.placeWord w).fault = s.fault := rfl
@[simp] theorem State.placeWord_report (s : State) (w : Word) : (s.placeWord w).report = s.report := rfl

@[simp] theorem State.jump_pc (s : State) (p : Word) : (s.jump p).pc = p := rfl
@[simp] theorem State.stepBack_pc (s : State) : s.stepBack.pc = s.pc - 2#16 := rfl
@[simp] theorem State.raise_fault (s : State) (r : FaultRecord) : (s.raise r).fault = some (s.fault.getD r) := rfl
@[simp] theorem State.raise_report (s : State) (r : FaultRecord) : (s.raise r).report = .fault r := rfl
@[simp] theorem State.timerDec_dt (s : State) : s.timerDec.dt = decrement s.dt := rfl
@[simp] theorem State.timerDec_st (s : State) : s.timerDec.st = decrement s.st := rfl
@[simp] theorem State.randomByte_fst (s : State) : s.randomByte.1 = (Config.rngNext s.rng).1 := rfl
@[simp] theorem State.randomByte_snd (s : State) :
    s.randomByte.2 = { s with rng := (Config.rngNext s.rng).2 } := rfl

/-! ### Registers -/

/-- The registers of two states with one register file are the same. -/
theorem State.getV_congr {s t : State} (h : t.v = s.v) (r : Reg) : t.getV r = s.getV r := by
  simp [State.getV, h]

theorem State.getV_eq (s : State) (r : Reg) : s.getV r = s.v[r.toNat]'r.isLt := rfl

@[simp] theorem State.getV_jump (s : State) (p : Word) (r : Reg) : (s.jump p).getV r = s.getV r := rfl
@[simp] theorem State.getV_raise (s : State) (f : FaultRecord) (r : Reg) : (s.raise f).getV r = s.getV r := rfl

@[simp] theorem State.getV_setV_same (s : State) (x : Reg) (b : Byte) : (s.setV x b).getV x = b := by
  simp [State.getV_eq, State.setV]

theorem State.getV_setV_ne (s : State) {x r : Reg} (b : Byte) (h : r ≠ x) :
    (s.setV x b).getV r = s.getV r := by
  have : x.toNat ≠ r.toNat := fun e => h (BitVec.eq_of_toNat_eq e.symm)
  simp [State.getV_eq, State.setV, this]

/-- Reading any register after a write. -/
theorem State.getV_setV (s : State) (x r : Reg) (b : Byte) :
    (s.setV x b).getV r = if r = x then b else s.getV r := by
  split
  · subst_vars; exact State.getV_setV_same ..
  · exact State.getV_setV_ne s b ‹_›

/-- The flag wins over the result, whatever the destination is (10_state.md R22). -/
@[simp] theorem State.getV_setResultAndFlag_VF (s : State) (x : Reg) (b : Byte) (c : Bool) :
    (s.setResultAndFlag x b c).getV VF = flagByte c := State.getV_setV_same ..

/-- The result stands where the destination is not `VF`. -/
theorem State.getV_setResultAndFlag_result (s : State) {x : Reg} (b : Byte) (c : Bool) (h : x ≠ VF) :
    (s.setResultAndFlag x b c).getV x = b := by
  rw [State.setResultAndFlag, State.getV_setV_ne _ _ h, State.getV_setV_same]

/-- Every other register is as before. -/
theorem State.getV_setResultAndFlag_ne (s : State) {x r : Reg} (b : Byte) (c : Bool) (hx : r ≠ x) (hf : r ≠ VF) :
    (s.setResultAndFlag x b c).getV r = s.getV r := by
  rw [State.setResultAndFlag, State.getV_setV_ne _ _ hf, State.getV_setV_ne _ _ hx]

/-- A flag is 0 or 1 (10_state.md R21). -/
theorem flagByte_zero_or_one (c : Bool) : flagByte c = 0x00#8 ∨ flagByte c = 0x01#8 := by
  cases c <;> simp [flagByte]

end Sys2Proof.Machine
end

