-- ==== Sys2Proof/Laws/Decode.lean ====
section
/-! SUPPORT. The fields of the words of each format (30_encoding.md R82), and words put together from their parts. -/

namespace Sys2Proof

/-! ### The bits of a word of each format -/

theorem getLsbD_wordNNN (op : Nibble) (nnn : Addr12) (i : Nat) :
    (wordNNN op nnn).getLsbD i = if i < 12 then nnn.getLsbD i else op.getLsbD (i - 12) := by
  exact (BitVec.getLsbD_append (x := op) (y := nnn) (i := i)).trans (by split <;> simp_all)

theorem getLsbD_wordXNN (op : Nibble) (x : Reg) (nn : Byte) (i : Nat) :
    (wordXNN op x nn).getLsbD i =
      if i < 8 then nn.getLsbD i else if i < 12 then x.getLsbD (i - 8) else op.getLsbD (i - 12) := by
  refine (BitVec.getLsbD_append (x := op ++ x) (y := nn) (i := i)).trans ?_
  rw [BitVec.getLsbD_append]
  by_cases h : i < 8 <;> by_cases h' : i < 12 <;> simp [h, h', show (i - 8 < 4) ↔ i < 12 by omega, Nat.sub_sub]

theorem getLsbD_wordXYN (op : Nibble) (x y : Reg) (n : Nibble) (i : Nat) :
    (wordXYN op x y n).getLsbD i =
      if i < 4 then n.getLsbD i else if i < 8 then y.getLsbD (i - 4)
      else if i < 12 then x.getLsbD (i - 8) else op.getLsbD (i - 12) := by
  refine (BitVec.getLsbD_append (x := op ++ x ++ y) (y := n) (i := i)).trans ?_
  rw [BitVec.getLsbD_append, BitVec.getLsbD_append]
  by_cases h : i < 4 <;> by_cases h' : i < 8 <;> by_cases h'' : i < 12 <;>
    simp [h, h', h'', show (i - 4 < 4) ↔ i < 8 by omega, show (i - 8 < 4) ↔ i < 12 by omega, Nat.sub_sub]

theorem getLsbD_wordOfBytes (first second : Byte) (i : Nat) :
    (wordOfBytes first second).getLsbD i = if i < 8 then second.getLsbD i else first.getLsbD (i - 8) := by
  exact (BitVec.getLsbD_append (x := first) (y := second) (i := i)).trans (by split <;> simp_all)

/-! ### The fields of a word of each format -/

@[simp] theorem opField_wordNNN (op : Nibble) (nnn : Addr12) : opField (wordNNN op nnn) = op := by
  ext i hi; simp [opField, getLsbD_wordNNN, hi, ← BitVec.getLsbD_eq_getElem]

@[simp] theorem nnnField_wordNNN (op : Nibble) (nnn : Addr12) : nnnField (wordNNN op nnn) = nnn := by
  ext i hi; simp [nnnField, getLsbD_wordNNN, hi, ← BitVec.getLsbD_eq_getElem]

@[simp] theorem opField_wordXNN (op : Nibble) (x : Reg) (nn : Byte) : opField (wordXNN op x nn) = op := by
  ext i hi; simp [opField, getLsbD_wordXNN, hi, show ¬ 12 + i < 8 by omega, ← BitVec.getLsbD_eq_getElem]

@[simp] theorem xField_wordXNN (op : Nibble) (x : Reg) (nn : Byte) : xField (wordXNN op x nn) = x := by
  ext i hi; simp [xField, getLsbD_wordXNN, hi, show 8 + i < 12 by omega, ← BitVec.getLsbD_eq_getElem]

@[simp] theorem nnField_wordXNN (op : Nibble) (x : Reg) (nn : Byte) : nnField (wordXNN op x nn) = nn := by
  ext i hi; simp [nnField, getLsbD_wordXNN, hi, ← BitVec.getLsbD_eq_getElem]

@[simp] theorem loByte_wordXNN (op : Nibble) (x : Reg) (nn : Byte) : loByte (wordXNN op x nn) = nn :=
  nnField_wordXNN op x nn

@[simp] theorem opField_wordXYN (op : Nibble) (x y : Reg) (n : Nibble) : opField (wordXYN op x y n) = op := by
  ext i hi; simp [opField, getLsbD_wordXYN, hi, show ¬ 12 + i < 4 by omega, show ¬ 12 + i < 8 by omega, ← BitVec.getLsbD_eq_getElem]

@[simp] theorem xField_wordXYN (op : Nibble) (x y : Reg) (n : Nibble) : xField (wordXYN op x y n) = x := by
  ext i hi; simp [xField, getLsbD_wordXYN, hi, show ¬ 8 + i < 4 by omega, show 8 + i < 12 by omega, ← BitVec.getLsbD_eq_getElem]

@[simp] theorem yField_wordXYN (op : Nibble) (x y : Reg) (n : Nibble) : yField (wordXYN op x y n) = y := by
  ext i hi; simp [yField, getLsbD_wordXYN, hi, show 4 + i < 8 by omega, ← BitVec.getLsbD_eq_getElem]

@[simp] theorem nField_wordXYN (op : Nibble) (x y : Reg) (n : Nibble) : nField (wordXYN op x y n) = n := by
  ext i hi; simp [nField, getLsbD_wordXYN, hi, ← BitVec.getLsbD_eq_getElem]

/-! ### Every word is of each format -/

theorem wordNNN_fields (w : Word) : wordNNN (opField w) (nnnField w) = w := by
  apply BitVec.eq_of_getLsbD_eq; intro i hi
  rw [getLsbD_wordNNN]
  by_cases h : i < 12
  · simp [h, nnnField]
  · simp [h, opField, show i - 12 < 4 by omega, show 12 + (i - 12) = i by omega]

theorem wordXNN_fields (w : Word) : wordXNN (opField w) (xField w) (nnField w) = w := by
  apply BitVec.eq_of_getLsbD_eq; intro i hi
  rw [getLsbD_wordXNN]
  by_cases h : i < 8
  · simp [h, nnField]
  · by_cases h' : i < 12
    · simp [h, h', xField, show i - 8 < 4 by omega, show 8 + (i - 8) = i by omega]
    · simp [h, h', opField, show i - 12 < 4 by omega, show 12 + (i - 12) = i by omega]

theorem wordXYN_fields (w : Word) : wordXYN (opField w) (xField w) (yField w) (nField w) = w := by
  apply BitVec.eq_of_getLsbD_eq; intro i hi
  rw [getLsbD_wordXYN]
  by_cases h : i < 4
  · simp [h, nField]
  · by_cases h' : i < 8
    · simp [h, h', yField, show i - 4 < 4 by omega, show 4 + (i - 4) = i by omega]
    · by_cases h'' : i < 12
      · simp [h, h', h'', xField, show i - 8 < 4 by omega, show 8 + (i - 8) = i by omega]
      · simp [h, h', h'', opField, show i - 12 < 4 by omega, show 12 + (i - 12) = i by omega]

/-- A word taken apart into its bytes and put together again. -/
@[simp] theorem wordOfBytes_hiByte_loByte (w : Word) : wordOfBytes (hiByte w) (loByte w) = w := by
  apply BitVec.eq_of_getLsbD_eq; intro i hi
  rw [getLsbD_wordOfBytes]
  by_cases h : i < 8
  · simp [h, loByte]
  · simp [h, hiByte, show i - 8 < 8 by omega, show 8 + (i - 8) = i by omega]

/-! ### Decode failures -/

/-- Whatever this answer is, a decode failure in it carries the word `w`. -/
def Decoded.FailsOnlyWith (w : Word) (d : Decoded) : Prop := ∀ u, d = .unknownOpcode u → u = w

theorem Decoded.failsOnlyWith_instr (w : Word) (i : Instr) : Decoded.FailsOnlyWith w (.instr i) :=
  fun _ h => Decoded.noConfusion h

theorem Decoded.failsOnlyWith_unknownOpcode (w : Word) : Decoded.FailsOnlyWith w (.unknownOpcode w) :=
  fun _ h => (Decoded.unknownOpcode.inj h).symm

theorem Decoded.failsOnlyWith_ite {w : Word} {c : Prop} [Decidable c] {a b : Decoded}
    (ha : Decoded.FailsOnlyWith w a) (hb : Decoded.FailsOnlyWith w b) :
    Decoded.FailsOnlyWith w (if c then a else b) := by
  split <;> assumption

/-- A decode failure carries the raw word (30_encoding.md R93). -/
theorem decodeWord_unknownOpcode {w u : Word} (h : decodeWord w = .unknownOpcode u) : u = w := by
  refine (?_ : Decoded.FailsOnlyWith w (decodeWord w)) u h
  unfold decodeWord decodeFamily0 decodeFamily8 decodeFamilyE decodeFamilyF
  repeat' first
    | exact Decoded.failsOnlyWith_instr _ _
    | exact Decoded.failsOnlyWith_unknownOpcode _
    | refine Decoded.failsOnlyWith_ite ?_ ?_

end Sys2Proof
end

