-- ==== Sys2Proof/Laws/Display.lean ====
section
/-! SUPPORT. The display: pixels after a write, a toggle, a clear. -/

namespace Sys2Proof.Machine

open Sys2Proof

/-- A pixel outside the display is clear (10_state.md R36). -/
theorem Display.pixel_outside (d : Display) {x y : Nat} (h : ¬ (x < 64 ∧ y < 32)) : d.pixel x y = false := by
  simp [Display.pixel, h]

/-- The pixels after one is written: that one, inside the display; every other as before. -/
theorem Display.pixel_setPixel (d : Display) (x y a b : Nat) (v : Bool) :
    (d.setPixel x y v).pixel a b = if a = x ∧ b = y ∧ x < 64 ∧ y < 32 then v else d.pixel a b := by
  by_cases hxy : x < 64 ∧ y < 32
  · by_cases hab : a < 64 ∧ b < 32
    · simp only [Display.pixel, Display.setPixel, hxy, hab, and_self, dite_true, Vector.get_eq_getElem,
        Vector.getElem_set]
      by_cases hx : x = a
      · subst hx
        by_cases hy : y = b
        · subst hy; simp
        · simp [hy, Ne.symm hy]
      · simp [hx, Ne.symm hx]
    · rw [Display.pixel_outside _ hab, Display.pixel_outside _ hab]
      simp; omega
  · rw [Display.setPixel, dif_neg hxy]
    simp; omega

/-- The pixels after a toggle: the toggled one flipped, inside the display; every other as before (R36). -/
theorem Display.pixel_toggle (d : Display) (x y a b : Nat) :
    (d.toggle x y).1.pixel a b = (d.pixel a b ^^ decide (a = x ∧ b = y ∧ x < 64 ∧ y < 32)) := by
  simp only [Display.toggle, Display.pixel_setPixel]
  split
  · obtain ⟨rfl, rfl, h⟩ := ‹_›; simp [h]
  · simp [*]

/-- A toggle answers the pixel's old value, and 0 outside the display (R36). -/
@[simp] theorem Display.toggle_snd (d : Display) (x y : Nat) : (d.toggle x y).2 = d.pixel x y := rfl

/-- Every pixel of the cleared display is 0 (R37). -/
@[simp] theorem Display.pixel_clear (x y : Nat) : Display.clear.pixel x y = false := by
  simp [Display.pixel, Display.clear, Vector.get_eq_getElem]

/-- Two displays with the same pixels are the same display. -/
theorem Display.ext_pixel {d e : Display} (h : ∀ x < 64, ∀ y < 32, d.pixel x y = e.pixel x y) : d = e := by
  refine Vector.ext fun x hx => Vector.ext fun y hy => ?_
  have := h x hx y hy
  simpa [Display.pixel, hx, hy, Vector.get_eq_getElem] using this

end Sys2Proof.Machine
end

