-- ==== Sys2Proof/Laws/Draw.lean ====
section
/-! SUPPORT. What drawing does: which pixels it flips, and when it reports a collision. -/

namespace Sys2Proof.Machine

open Sys2Proof

/-- The bit of a column of sprite rows that lands on the pixel `(a, b)`, inside the display (44_display_input.md
R201, R202). -/
def landsOn (rows : List Byte) (x0 y0 a b : Nat) : Bool :=
  decide (a < 64 ∧ b < 32 ∧ x0 ≤ a ∧ a < x0 + 8 ∧ y0 ≤ b ∧ b < y0 + rows.length) &&
    (rows.getD (b - y0) 0).getLsbD (7 - (a - x0))

/-- The first `n` columns of one row. -/
def drawColumns (acc : Drawing) (x0 y : Nat) (row : Byte) (n : Nat) : Drawing :=
  (List.range n).foldl (fun acc c => drawBit acc (x0 + c) y (row.getLsbD (7 - c))) acc

theorem drawColumns_succ (acc : Drawing) (x0 y : Nat) (row : Byte) (n : Nat) :
    drawColumns acc x0 y row (n + 1) =
      drawBit (drawColumns acc x0 y row n) (x0 + n) y (row.getLsbD (7 - n)) := by
  simp [drawColumns, List.range_succ]

theorem pixel_drawBit (acc : Drawing) (x y a b : Nat) (bit : Bool) :
    (drawBit acc x y bit).1.pixel a b =
      (acc.1.pixel a b ^^ (decide (a = x ∧ b = y ∧ x < 64 ∧ y < 32) && bit)) := by
  cases bit <;> simp [drawBit, Display.pixel_toggle]

theorem collision_drawBit (acc : Drawing) (x y : Nat) (bit : Bool) :
    (drawBit acc x y bit).2 = (acc.2 || (bit && acc.1.pixel x y)) := by
  cases bit <;> simp [drawBit]

theorem pixel_drawColumns (acc : Drawing) (x0 y : Nat) (row : Byte) (n a b : Nat) :
    (drawColumns acc x0 y row n).1.pixel a b = (acc.1.pixel a b ^^
      (decide (a < 64 ∧ y < 32 ∧ b = y ∧ x0 ≤ a ∧ a < x0 + n) && row.getLsbD (7 - (a - x0)))) := by
  induction n with
  | zero =>
    have : ¬ (a < 64 ∧ y < 32 ∧ b = y ∧ x0 ≤ a ∧ a < x0 + 0) := by omega
    simp only [this, decide_false, Bool.false_and, Bool.xor_false]
    rfl
  | succ n ih =>
    rw [drawColumns_succ, pixel_drawBit, ih, Bool.xor_assoc]
    congr 1
    by_cases h : a = x0 + n ∧ b = y ∧ x0 + n < 64 ∧ y < 32
    · obtain ⟨rfl, rfl, h1, h2⟩ := h
      simp [h1, h2]
    · have : (a < 64 ∧ y < 32 ∧ b = y ∧ x0 ≤ a ∧ a < x0 + (n + 1)) ↔
        (a < 64 ∧ y < 32 ∧ b = y ∧ x0 ≤ a ∧ a < x0 + n) := by omega
      simp [h, this]

theorem collision_drawColumns (acc : Drawing) (x0 y : Nat) (row : Byte) (n : Nat) :
    (drawColumns acc x0 y row n).2 = true ↔
      acc.2 = true ∨ ∃ c < n, row.getLsbD (7 - c) = true ∧ acc.1.pixel (x0 + c) y = true := by
  induction n with
  | zero => simp [drawColumns]
  | succ n ih =>
    have hp : (drawColumns acc x0 y row n).1.pixel (x0 + n) y = acc.1.pixel (x0 + n) y := by
      rw [pixel_drawColumns]; simp
    rw [drawColumns_succ, collision_drawBit, Bool.or_eq_true, Bool.and_eq_true, ih, hp, or_assoc]
    refine or_congr_right ⟨?_, ?_⟩
    · rintro (⟨c, hc, h⟩ | h)
      · exact ⟨c, by omega, h⟩
      · exact ⟨n, by omega, h⟩
    · rintro ⟨c, hc, h⟩
      by_cases hn : c = n
      · exact .inr (hn ▸ h)
      · exact .inl ⟨c, by omega, h⟩

theorem landsOn_cons (row : Byte) (rest : List Byte) (x0 y0 a b : Nat) :
    landsOn (row :: rest) x0 y0 a b =
      ((decide (a < 64 ∧ y0 < 32 ∧ b = y0 ∧ x0 ≤ a ∧ a < x0 + 8) && row.getLsbD (7 - (a - x0))) ^^
        landsOn rest x0 (y0 + 1) a b) := by
  by_cases hb : b = y0
  · subst hb
    simp [landsOn]
  · by_cases hlt : b < y0
    · have : ¬ y0 ≤ b := by omega
      have h' : ¬ y0 + 1 ≤ b := by omega
      simp [landsOn, hb, this, h']
    · have hk : b - y0 = (b - (y0 + 1)) + 1 := by omega
      have h1 : y0 ≤ b ↔ y0 + 1 ≤ b := by omega
      have h2 : b < y0 + (rest.length + 1) ↔ b < y0 + 1 + rest.length := by omega
      simp [landsOn, hb, hk, h1, h2]

/-- Drawing rows flips exactly the pixels on which a set bit of theirs lands (R203). -/
theorem pixel_drawRows (acc : Drawing) (x0 y0 a b : Nat) (rows : List Byte) :
    (drawRows acc x0 y0 rows).1.pixel a b = (acc.1.pixel a b ^^ landsOn rows x0 y0 a b) := by
  induction rows generalizing acc y0 with
  | nil => simp [drawRows, landsOn]
  | cons row rest ih =>
    rw [drawRows, ih, landsOn_cons, ← Bool.xor_assoc]
    congr 1
    exact pixel_drawColumns acc x0 y0 row 8 a b

/-- The collision of drawing rows: a set bit landed on a pixel that was set before (R203). -/
theorem collision_drawRows (acc : Drawing) (x0 y0 : Nat) (rows : List Byte) :
    (drawRows acc x0 y0 rows).2 = true ↔
      acc.2 = true ∨ ∃ a b, acc.1.pixel a b = true ∧ landsOn rows x0 y0 a b = true := by
  induction rows generalizing acc y0 with
  | nil =>
    have : ∀ a b, landsOn [] x0 y0 a b = false := by intro a b; simp [landsOn]
    simp [drawRows, this]
  | cons row rest ih =>
    rw [drawRows, ih, show drawRow acc x0 y0 row = drawColumns acc x0 y0 row 8 from rfl, collision_drawColumns,
      or_assoc]
    refine or_congr_right ⟨?_, ?_⟩
    · rintro (⟨c, hc, hbit, hpix⟩ | ⟨a, b, hpix, hland⟩)
      · have hin : x0 + c < 64 ∧ y0 < 32 := by
          by_contra h; rw [Display.pixel_outside _ h] at hpix; simp at hpix
        refine ⟨x0 + c, y0, hpix, ?_⟩
        have : landsOn rest x0 (y0 + 1) (x0 + c) y0 = false := by simp [landsOn]
        rw [landsOn_cons, this]
        simp [hin, hc, hbit]
      · refine ⟨a, b, ?_, ?_⟩
        · have hb : b ≠ y0 := by
            rintro rfl; simp [landsOn] at hland
          rw [pixel_drawColumns] at hpix
          simpa [hb] using hpix
        · have hb : b ≠ y0 := by
            rintro rfl; simp [landsOn] at hland
          rw [landsOn_cons, hland]; simp [hb]
    · rintro ⟨a, b, hpix, hland⟩
      rw [landsOn_cons] at hland
      by_cases hb : b = y0
      · subst hb
        have : landsOn rest x0 (b + 1) a b = false := by simp [landsOn]
        simp only [this, Bool.xor_false, Bool.and_eq_true, decide_eq_true_eq] at hland
        obtain ⟨⟨h1, h2, -, h3, h4⟩, hbit⟩ := hland
        exact .inl ⟨a - x0, by omega, hbit, by rwa [show x0 + (a - x0) = a by omega]⟩
      · refine .inr ⟨a, b, ?_, ?_⟩
        · rw [pixel_drawColumns]; simpa [hb] using hpix
        · simpa [hb] using hland

end Sys2Proof.Machine
end

