-- ==== Sys2Proof/Laws/Memory.lean ====
section
/-! SUPPORT. Memory: read after write, and every operation keeps the canonical form. -/

namespace Sys2Proof.Machine

open Sys2Proof

/-! ### Reading after writing -/

theorem Memory.read_erase_same (m : Memory) (a : Nat) : (m.erase a).read a = Memory.resetByte a := by
  induction m with
  | nil => rfl
  | cons c rest ih =>
    by_cases h : c.1 = a
    · simpa [Memory.erase, h] using ih
    · rw [show Memory.erase (c :: rest) a = c :: Memory.erase rest a by simp [Memory.erase, h]]
      simp only [Memory.read, h, if_false]
      exact ih

theorem Memory.read_erase_ne (m : Memory) {a b : Nat} (hb : b ≠ a) : (m.erase a).read b = m.read b := by
  induction m with
  | nil => rfl
  | cons c rest ih =>
    by_cases h : c.1 = a
    · rw [show Memory.erase (c :: rest) a = Memory.erase rest a by simp [Memory.erase, h], ih]
      simp only [Memory.read, h, if_neg (Ne.symm hb)]
    · rw [show Memory.erase (c :: rest) a = c :: Memory.erase rest a by simp [Memory.erase, h]]
      simp only [Memory.read, ih]

theorem Memory.read_insert_same (m : Memory) (a : Nat) (v : Byte) (h : ∀ c ∈ m, c.1 ≠ a) :
    (m.insert a v).read a = v := by
  induction m with
  | nil => simp [Memory.insert, Memory.read]
  | cons c rest ih =>
    have hc : c.1 ≠ a := h c (by simp)
    have ih := ih (fun d hd => h d (by simp [hd]))
    simp only [Memory.insert]
    split
    · simp [Memory.read]
    · simpa [Memory.read, hc] using ih

theorem Memory.read_insert_ne (m : Memory) {a b : Nat} (v : Byte) (hb : b ≠ a) :
    (m.insert a v).read b = m.read b := by
  induction m with
  | nil => simp [Memory.insert, Memory.read, Ne.symm hb]
  | cons c rest ih =>
    simp only [Memory.insert]
    split
    · simp [Memory.read, Ne.symm hb]
    · simp [Memory.read, ih]

/-- A read after a write to the same place gives the value written. -/
theorem Memory.read_write_same (m : Memory) {a : Nat} (v : Byte) (h : a < Config.memSize) :
    (m.write a v).read a = v := by
  simp only [Memory.write, h, if_true]
  split
  · rw [Memory.read_erase_same]; exact Eq.symm ‹_›
  · exact Memory.read_insert_same _ _ _ (by simp [Memory.erase])

/-- A write leaves every other place alone. -/
theorem Memory.read_write_ne (m : Memory) {a b : Nat} (v : Byte) (h : b ≠ a) :
    (m.write a v).read b = m.read b := by
  simp only [Memory.write]
  split
  · split
    · exact Memory.read_erase_ne m h
    · rw [Memory.read_insert_ne _ _ h, Memory.read_erase_ne m h]
  · rfl

/-! ### Many bytes -/

theorem Memory.read_writeBytes_outside (m : Memory) (a : Nat) (bs : List Byte) {b : Nat}
    (h : b < a ∨ a + bs.length ≤ b) : (m.writeBytes a bs).read b = m.read b := by
  induction bs generalizing m a with
  | nil => rfl
  | cons v rest ih =>
    simp only [List.length_cons] at h
    simp only [Memory.writeBytes]
    rw [ih _ _ (by omega), Memory.read_write_ne _ _ (by omega)]

theorem Memory.read_writeBytes_inside (m : Memory) (a : Nat) (bs : List Byte) {k : Nat} (hk : k < bs.length)
    (h : a + bs.length ≤ Config.memSize) : (m.writeBytes a bs).read (a + k) = bs[k] := by
  induction bs generalizing m a k with
  | nil => simp at hk
  | cons v rest ih =>
    simp only [List.length_cons] at h hk
    simp only [Memory.writeBytes]
    cases k with
    | zero =>
      rw [Memory.read_writeBytes_outside _ _ _ (by omega)]
      exact Memory.read_write_same m v (by omega)
    | succ k =>
      have := ih (m.write a v) (a + 1) (k := k) (by omega) (by omega)
      rw [show a + (k + 1) = a + 1 + k by omega, this]
      rfl

@[simp] theorem Memory.length_readBytes (m : Memory) (a n : Nat) : (m.readBytes a n).length = n := by
  induction n generalizing a with
  | zero => rfl
  | succ n ih => simp [Memory.readBytes, ih]

theorem Memory.getElem_readBytes (m : Memory) (a n k : Nat) (h : k < (m.readBytes a n).length) :
    (m.readBytes a n)[k] = m.read (a + k) := by
  induction n generalizing a k with
  | zero => simp [Memory.readBytes] at h
  | succ n ih =>
    cases k with
    | zero => rfl
    | succ k =>
      simp only [Memory.readBytes, List.getElem_cons_succ]
      rw [ih, Nat.add_right_comm, Nat.add_assoc]

/-! ### The range check -/

/-- The range check lets through exactly the ranges that exist. -/
theorem checkRange_eq_none_iff (addr n : Nat) : checkRange addr n = none ↔ n = 0 ∨ addr + n ≤ Config.memSize := by
  induction n generalizing addr with
  | zero => simp [checkRange]
  | succ n ih =>
    simp only [checkRange]
    split
    · simp; omega
    · rw [ih]; omega

/-- The address it reports is the first that does not exist (20_memory.md R55). -/
theorem checkRange_eq_some {addr n bad : Nat} (h : checkRange addr n = some bad) :
    bad = max addr Config.memSize ∧ n ≠ 0 ∧ Config.memSize < addr + n := by
  induction n generalizing addr with
  | zero => simp [checkRange] at h
  | succ n ih =>
    simp only [checkRange] at h
    split at h
    · simp only [Option.some.injEq] at h; omega
    · have := ih h; omega

/-- A range that is not all there is reported at its first address that is not. -/
theorem checkRange_of_outside {addr n : Nat} (hn : n ≠ 0) (h : Config.memSize < addr + n) :
    checkRange addr n = some (max addr Config.memSize) := by
  cases hc : checkRange addr n with
  | none => rw [checkRange_eq_none_iff] at hc; omega
  | some bad => rw [(checkRange_eq_some hc).1]

/-! ### The canonical form -/

theorem Memory.rising_iff (low : Nat) (m : Memory) :
    Memory.rising low m = true ↔ (∀ c ∈ m, low ≤ c.1) ∧ m.Pairwise (fun c d => c.1 < d.1) := by
  induction m generalizing low with
  | nil => simp [Memory.rising]
  | cons c rest ih =>
    simp only [Memory.rising, Bool.and_eq_true, decide_eq_true_eq, ih, List.forall_mem_cons, List.pairwise_cons]
    constructor
    · rintro ⟨h, hr, hp⟩
      exact ⟨⟨h, fun d hd => by have := hr d hd; omega⟩, fun d hd => hr d hd, hp⟩
    · rintro ⟨⟨h, _⟩, hr, hp⟩
      exact ⟨h, fun d hd => hr d hd, hp⟩

/-- The canonical form, as facts about the pairs. -/
theorem Memory.wf_iff (m : Memory) :
    m.wf = true ↔ m.Pairwise (fun c d => c.1 < d.1) ∧
      ∀ c ∈ m, c.1 < Config.memSize ∧ c.2 ≠ Memory.resetByte c.1 := by
  simp [Memory.wf, Memory.rising_iff]

theorem Memory.mem_insert {m : Memory} {a : Nat} {v : Byte} {c : Host.Cell} :
    c ∈ m.insert a v ↔ c = (a, v) ∨ c ∈ m := by
  induction m with
  | nil => simp [Memory.insert]
  | cons d rest ih =>
    simp only [Memory.insert]
    split
    · simp
    · simp [ih, or_left_comm]

theorem Memory.pairwise_insert {m : Memory} {a : Nat} {v : Byte} (hm : m.Pairwise (fun c d => c.1 < d.1))
    (h : ∀ c ∈ m, c.1 ≠ a) : (m.insert a v).Pairwise (fun c d => c.1 < d.1) := by
  induction m with
  | nil => simp [Memory.insert]
  | cons d rest ih =>
    rw [List.pairwise_cons] at hm
    simp only [Memory.insert]
    split
    · refine List.pairwise_cons.mpr ⟨?_, List.pairwise_cons.mpr hm⟩
      intro c hc
      rcases List.mem_cons.mp hc with rfl | hc
      · assumption
      · exact Nat.lt_trans ‹_› (hm.1 c hc)
    · have hd : d.1 ≠ a := h d (by simp)
      refine List.pairwise_cons.mpr ⟨?_, ih hm.2 (fun c hc => h c (by simp [hc]))⟩
      intro c hc
      rcases Memory.mem_insert.mp hc with rfl | hc
      · show d.1 < a; omega
      · exact hm.1 c hc

/-- A write keeps the canonical form. -/
theorem Memory.wf_write {m : Memory} (a : Nat) (v : Byte) (hm : m.wf = true) : (m.write a v).wf = true := by
  rw [Memory.wf_iff] at hm ⊢
  have he : (m.erase a).Pairwise (fun c d => c.1 < d.1) := hm.1.filter _
  have hc : ∀ c ∈ m.erase a, c ∈ m ∧ c.1 ≠ a := by simp [Memory.erase]
  simp only [Memory.write]
  split
  · split
    · exact ⟨he, fun c h => hm.2 c (hc c h).1⟩
    · refine ⟨Memory.pairwise_insert he (fun c h => (hc c h).2), fun c h => ?_⟩
      rcases Memory.mem_insert.mp h with rfl | h
      · exact ⟨‹_›, ‹_›⟩
      · exact hm.2 c (hc c h).1
  · exact hm

/-- A multi-byte write keeps the canonical form. -/
theorem Memory.wf_writeBytes {m : Memory} (a : Nat) (bs : List Byte) (hm : m.wf = true) :
    (m.writeBytes a bs).wf = true := by
  induction bs generalizing m a with
  | nil => exact hm
  | cons v rest ih => exact ih _ (Memory.wf_write a v hm)

/-- A word placed in memory keeps the canonical form. -/
theorem Memory.wf_writeWord {m : Memory} (a : Nat) (w : Word) (hm : m.wf = true) : (m.writeWord a w).wf = true :=
  Memory.wf_writeBytes a _ hm

/-- Reset memory, with nothing listed, has the canonical form. -/
theorem Memory.wf_reset : State.reset.mem.wf = true := rfl

end Sys2Proof.Machine
end

