-- ==== Sys2Proof/Laws/Ops.lean ====
section
/-! SUPPORT. One lemma per shared operation that says everything it can do. -/

namespace Sys2Proof.Machine

open Sys2Proof

/-! ### Skips -/

theorem State.skipIf_pc (s : State) (c : Bool) : (s.skipIf c).pc = if c then s.pc + 2#16 else s.pc := by
  cases c <;> rfl

/-- A skip changes nothing but `pc`. -/
theorem State.skipIf_eq (s : State) (c : Bool) : s.skipIf c = s.jump (if c then s.pc + 2#16 else s.pc) := by
  cases c <;> rfl

/-! ### The call stack -/

/-- An unbounded stack is never full (10_state.md R31). -/
@[simp] theorem stackIsFull_unbounded (entries : Nat) : stackIsFull .unbounded entries = false := rfl

/-- A bounded stack is full exactly at its capacity (R31). -/
@[simp] theorem stackIsFull_bounded (n : Nat) (hn : 0 < n) (entries : Nat) :
    stackIsFull (.bounded n hn) entries = true ↔ entries = n := by
  simp [stackIsFull]

theorem State.push_eq_none_iff (s : State) (w : Word) :
    s.push w = none ↔ stackIsFull s.stackDepth s.stack.length = true := by
  simp [State.push]

/-- A push that succeeds appends the value and changes nothing else. -/
theorem State.push_eq_some {s t : State} {w : Word} (h : s.push w = some t) :
    t = { s with stack := s.stack ++ [w] } ∧ stackIsFull s.stackDepth s.stack.length = false := by
  simp only [State.push] at h
  split at h
  · simp at h
  · next hf => exact ⟨(Option.some.inj h).symm, Bool.eq_false_iff.mpr hf⟩

theorem State.pop_eq_none_iff (s : State) : s.pop = none ↔ s.stack = [] := by
  cases h : s.stack.getLast? <;> simp_all [State.pop]
  · rintro h'; simp [h'] at h

/-- A pop that succeeds answers the last entry, removes it, and changes nothing else. -/
theorem State.pop_eq_some {s t : State} {w : Word} (h : s.pop = some (w, t)) :
    s.stack = t.stack ++ [w] ∧ t = { s with stack := t.stack } := by
  simp only [State.pop] at h
  cases hl : s.stack.getLast? with
  | none => simp [hl] at h
  | some value =>
    simp only [hl, Option.some.injEq, Prod.mk.injEq] at h
    obtain ⟨rfl, rfl⟩ := h
    exact ⟨(List.dropLast_append_getLast? value hl).symm, rfl⟩

theorem State.pop_of_append {s : State} {rest : List Word} {w : Word} (h : s.stack = rest ++ [w]) :
    s.pop = some (w, { s with stack := rest }) := by
  simp [State.pop, h]

/-! ### The keypad -/

/-- The key found is held and no key below it is. -/
theorem State.firstHeldKey_eq_some {s : State} {k : Nat} (h : s.firstHeldKey = some k) :
    k < 16 ∧ s.keyHeld k = true ∧ ∀ j < k, s.keyHeld j = false := by
  rw [State.firstHeldKey, List.find?_range_eq_some] at h
  simpa [and_assoc, and_comm, and_left_comm] using h

theorem State.firstHeldKey_eq_none_iff (s : State) : s.firstHeldKey = none ↔ ∀ k < 16, s.keyHeld k = false := by
  simp [State.firstHeldKey]

/-! ### Range-checked instructions -/

/-- A range-checked instruction either has its whole effect, the range being all there, or takes `MemoryRange` of
the first address that is not, with none of its effect. -/
theorem State.withRange_cases (s : State) (i : Instr) (a n : Nat) (body : State) :
    (n = 0 ∨ a + n ≤ Config.memSize) ∧ s.withRange i a n body = body ∨
    (n ≠ 0 ∧ Config.memSize < a + n) ∧ s.withRange i a n body =
      s.raise { code := .memoryRange, word := encode i, addr := max a Config.memSize } := by
  simp only [State.withRange]
  cases h : checkRange a n with
  | none => exact .inl ⟨(checkRange_eq_none_iff a n).mp h, rfl⟩
  | some bad =>
    obtain ⟨rfl, hn⟩ := checkRange_eq_some h
    exact .inr ⟨hn, rfl⟩

theorem State.withRange_inside (s : State) (i : Instr) {a n : Nat} (body : State)
    (h : n = 0 ∨ a + n ≤ Config.memSize) : s.withRange i a n body = body := by
  simp only [State.withRange, (checkRange_eq_none_iff a n).mpr h]

theorem State.withRange_outside (s : State) (i : Instr) {a n : Nat} (body : State) (hn : n ≠ 0)
    (h : Config.memSize < a + n) : s.withRange i a n body =
      s.raise { code := .memoryRange, word := encode i, addr := max a Config.memSize } := by
  simp only [State.withRange, checkRange_of_outside hn h]

/-! ### Register blocks -/

/-- The registers after a block load: the bytes from register `j` on, every other as before. -/
theorem getElem_loadBlock (v : Vector Byte 16) (j : Nat) (bs : List Byte) (r : Nat) (hr : r < 16) :
    (loadBlock v j bs)[r] = if h : j ≤ r ∧ r < j + bs.length then bs[r - j] else v[r] := by
  induction bs generalizing v j with
  | nil => simp [loadBlock]
  | cons b rest ih =>
    rw [loadBlock, ih]
    by_cases h : j + 1 ≤ r ∧ r < j + 1 + rest.length
    · rw [dif_pos h, dif_pos ⟨by omega, by simp; omega⟩]
      simp [show r - j = (r - (j + 1)) + 1 by omega]
    · rw [dif_neg h]
      by_cases hj : j = r
      · subst hj; simp
      · rw [dif_neg (by simp; omega)]
        simp [hj]

@[simp] theorem State.length_blockV (s : State) (x : Reg) : (s.blockV x).length = x.toNat + 1 := by
  have := x.isLt
  simp [State.blockV]
  omega

theorem State.getElem_blockV (s : State) (x : Reg) (j : Nat) (h : j < (s.blockV x).length) :
    (s.blockV x)[j] = s.getV (BitVec.ofNat 4 j) := by
  have hx := x.isLt
  rw [State.length_blockV] at h
  have : (BitVec.ofNat 4 j).toNat = j := by simp; omega
  simp [State.blockV, State.getV_eq, this]

end Sys2Proof.Machine
end

