-- ==== Sys2Proof/Laws/Frame.lean ====
section
/-! SUPPORT. What each shared operation changes, and that it changes nothing else. -/

namespace Sys2Proof.Machine

open Sys2Proof

theorem ChangesOnly.refl (may : Part → Prop) (s : State) : ChangesOnly may s s := by
  intro p _; cases p <;> rfl

/-- A frame stays true when more parts are allowed to change. -/
theorem ChangesOnly.mono {may more : Part → Prop} {s t : State} (h : ChangesOnly may s t) (hm : ∀ p, may p → more p) :
    ChangesOnly more s t := fun p hp => h p (fun hq => hp (hm p hq))

theorem changesOnly_jump (s : State) (target : Word) : ChangesOnly (fun p => p = .pc) s (s.jump target) := by
  intro p hp; cases p <;> first | rfl | exact absurd rfl hp

theorem changesOnly_skipIf (s : State) (c : Bool) : ChangesOnly (fun p => p = .pc) s (s.skipIf c) := by
  rw [State.skipIf_eq]; exact changesOnly_jump s _

theorem changesOnly_setV (s : State) (x : Reg) (b : Byte) : ChangesOnly (fun p => p = .reg x) s (s.setV x b) := by
  intro p hp
  cases p with
  | reg r => exact State.getV_setV_ne s b (fun h => hp (by rw [h]))
  | _ => rfl

theorem changesOnly_setResultAndFlag (s : State) (x : Reg) (b : Byte) (c : Bool) :
    ChangesOnly (fun p => p = .reg x ∨ p = .reg VF) s (s.setResultAndFlag x b c) := by
  intro p hp
  cases p with
  | reg r =>
    exact State.getV_setResultAndFlag_ne s b c (fun h => hp (.inl (by rw [h]))) (fun h => hp (.inr (by rw [h])))
  | _ => rfl

/-- Taking a fault is what the frame of a fault says. -/
theorem takesFault_raise (s : State) (r : FaultRecord) : TakesFault r s (s.raise r) := by
  refine ⟨rfl, rfl, fun p hp => ?_⟩
  cases p <;> first | rfl | exact absurd (Or.inl rfl) hp | exact absurd (Or.inr rfl) hp

theorem changesOnly_stackAndPc (s : State) (stack : List Word) (pc : Word) :
    ChangesOnly (fun p => p = .pc ∨ p = .stack) s { s with stack := stack, pc := pc } := by
  intro p hp
  cases p <;> first | rfl | exact absurd (Or.inl rfl) hp | exact absurd (Or.inr rfl) hp

theorem changesOnly_i (s : State) (i : Word) : ChangesOnly (fun p => p = .i) s { s with i := i } := by
  intro p hp; cases p <;> first | rfl | exact absurd rfl hp

theorem changesOnly_dt (s : State) (b : Byte) : ChangesOnly (fun p => p = .dt) s { s with dt := b } := by
  intro p hp; cases p <;> first | rfl | exact absurd rfl hp

theorem changesOnly_st (s : State) (b : Byte) : ChangesOnly (fun p => p = .st) s { s with st := b } := by
  intro p hp; cases p <;> first | rfl | exact absurd rfl hp

/-- A multi-byte store changes the bytes it stores to and nothing else. -/
theorem changesOnly_writeBytes (s : State) (a : Nat) (bs : List Byte) :
    ChangesOnly (fun p => ∃ k < bs.length, p = .byte (a + k)) s { s with mem := s.mem.writeBytes a bs } := by
  intro p hp
  cases p with
  | byte b =>
    refine Memory.read_writeBytes_outside _ _ _ ?_
    by_contra h
    exact hp ⟨b - a, by omega, by rw [show a + (b - a) = b by omega]⟩
  | _ => rfl

/-- A block load changes the registers of the block and nothing else. -/
theorem changesOnly_loadBlock (s : State) (bs : List Byte) :
    ChangesOnly (fun p => ∃ r : Reg, r.toNat < bs.length ∧ p = .reg r) s { s with v := loadBlock s.v 0 bs } := by
  intro p hp
  cases p with
  | reg r =>
    show (loadBlock s.v 0 bs)[r.toNat] = s.v[r.toNat]
    rw [getElem_loadBlock, dif_neg]
    intro h
    exact hp ⟨r, by omega, rfl⟩
  | _ => rfl

end Sys2Proof.Machine
end

