-- ==== Sys2Proof/Laws/Step.lean ====
section
/-! SUPPORT. What a tick can do: it ends in the fetch, it ends in the decoder, or it executes one instruction. -/

namespace Sys2Proof.Machine

open Sys2Proof

/-- The whole of fetch and decode, case by case (40_cycle.md R110). -/
theorem State.beginTick_cases (s : State) :
    (0xFFF ≤ s.pc.toNat ∧ s.beginTick = .ended (({ s with report := .ok } : State).raise
      { code := .memoryRange, word := 0x0000#16, addr := max s.pc.toNat Config.memSize })) ∨
    (s.pc.toNat ≤ 0xFFE ∧ ∃ w, decodeWord (s.mem.readWord s.pc.toNat) = .unknownOpcode w ∧
      s.beginTick = .ended (({ s with pc := s.pc + 2#16, report := .ok } : State).raise
        { code := .unknownOpcode, word := w, addr := s.pc.toNat })) ∨
    (s.pc.toNat ≤ 0xFFE ∧ ∃ i, decodeWord (s.mem.readWord s.pc.toNat) = .instr i ∧
      s.beginTick = .execute i { s with pc := s.pc + 2#16, report := .ok }) := by
  simp only [State.beginTick, State.fetch]
  cases hc : checkRange s.pc.toNat 2 with
  | some bad =>
    obtain ⟨rfl, -, h⟩ := checkRange_eq_some hc
    exact .inl ⟨by simp only [Config.memSize] at h; omega, rfl⟩
  | none =>
    have h : s.pc.toNat ≤ 0xFFE := by
      have := (checkRange_eq_none_iff _ _).mp hc
      simp only [Config.memSize] at this; omega
    cases hd : decodeWord (s.mem.readWord s.pc.toNat) with
    | instr i => exact .inr (.inr ⟨h, i, rfl, by simp only [hd]; rfl⟩)
    | unknownOpcode w => exact .inr (.inl ⟨h, w, rfl, by simp only [hd]; rfl⟩)

theorem step_of_execute {s t : State} {i : Instr} (h : s.beginTick = .execute i t) : step s = exec i t := by
  simp only [step, h]

theorem step_of_ended {s t : State} (h : s.beginTick = .ended t) : step s = .next t := by
  simp only [step, h]

/-- After an advance from a fetched address, `pc` is that address and 2, with no wrap (10_state.md R26). -/
theorem toNat_pc_add_two {pc : Word} (h : pc.toNat ≤ 0xFFE) : (pc + 2#16).toNat = pc.toNat + 2 := by
  rw [BitVec.toNat_add, show (2#16).toNat = 2 from rfl]; omega

end Sys2Proof.Machine
end

