-- ==== Sys2Proof/Laws/Exec.lean ====
section
/-! SUPPORT. What executing an instruction can do, said once: it takes a fault, or it has its effect. -/

namespace Sys2Proof.Machine

open Sys2Proof

/-- The effect of an instruction that takes no fault, as one update of the state. -/
def Effect (s t : State) : Instr → Prop
  | .cls => t = { s with disp := Display.clear }
  | .ret => s.stack = [] ∧ t = s ∨ ∃ rest value, s.stack = rest ++ [value] ∧ t = { s with stack := rest, pc := value }
  | .sys _ => t = s
  | .jp nnn => t = s.jump (zext16 nnn)
  | .call nnn => stackIsFull s.stackDepth s.stack.length = false ∧
      t = { s with stack := s.stack ++ [s.pc], pc := zext16 nnn }
  | .seImm x nn => t = s.jump (if s.getV x == nn then s.pc + 2#16 else s.pc)
  | .sneImm x nn => t = s.jump (if s.getV x != nn then s.pc + 2#16 else s.pc)
  | .seReg x y => t = s.jump (if s.getV x == s.getV y then s.pc + 2#16 else s.pc)
  | .sneReg x y => t = s.jump (if s.getV x != s.getV y then s.pc + 2#16 else s.pc)
  | .skp x => t = s.jump (if s.keyHeld (s.keyIndex x) then s.pc + 2#16 else s.pc)
  | .sknp x => t = s.jump (if !s.keyHeld (s.keyIndex x) then s.pc + 2#16 else s.pc)
  | .jpV0 nnn => t = s.jump (zext16 nnn + (s.getV 0x0#4).setWidth 16)
  | .ldVxK x => s.firstHeldKey = none ∧ t = s.jump (s.pc - 2#16) ∨
      ∃ k, s.firstHeldKey = some k ∧ t = s.setV x (BitVec.ofNat 8 k)
  | .ldImm x nn => t = s.setV x nn
  | .addImm x nn => t = s.setV x (s.getV x + nn)
  | .ldReg x y => t = s.setV x (s.getV y)
  | .orReg x y => t = s.setV x (s.getV x ||| s.getV y)
  | .andReg x y => t = s.setV x (s.getV x &&& s.getV y)
  | .xorReg x y => t = s.setV x (s.getV x ^^^ s.getV y)
  | .addReg x y => t = s.setResultAndFlag x (s.getV x + s.getV y) (carryFlag (s.getV x) (s.getV y))
  | .sub x y => t = s.setResultAndFlag x (s.getV x - s.getV y) (noBorrowFlag (s.getV x) (s.getV y))
  | .subn x y => t = s.setResultAndFlag x (s.getV y - s.getV x) (noBorrowFlag (s.getV y) (s.getV x))
  | .shr x _ => t = s.setResultAndFlag x (s.getV x >>> 1) (lowBitFlag (s.getV x))
  | .shl x _ => t = s.setResultAndFlag x (s.getV x <<< 1) (highBitFlag (s.getV x))
  | .rnd x nn => t = ({ s with rng := (Config.rngNext s.rng).2 } : State).setV x ((Config.rngNext s.rng).1 &&& nn)
  | .ldI nnn => t = { s with i := zext16 nnn }
  | .addIVx x => t = { s with i := s.i + (s.getV x).setWidth 16 }
  | .ldFVx x => t = { s with i := fontAddress (s.getV x) }
  | .ldVxDt x => t = s.setV x s.dt
  | .ldDtVx x => t = { s with dt := s.getV x }
  | .ldStVx x => t = { s with st := s.getV x }
  | .ldBVx x => s.dataAddress 0 + 3 ≤ Config.memSize ∧
      t = { s with mem := s.mem.writeBytes (s.dataAddress 0) (bcdDigits (s.getV x)) }
  | .storeRegs x => s.dataAddress 0 + (x.toNat + 1) ≤ Config.memSize ∧
      t = { s with mem := s.mem.writeBytes (s.dataAddress 0) (s.blockV x) }
  | .loadRegs x => s.dataAddress 0 + (x.toNat + 1) ≤ Config.memSize ∧
      t = { s with v := loadBlock s.v 0 (s.mem.readBytes (s.dataAddress 0) (x.toNat + 1)) }
  | .drw x y n => (n.toNat = 0 ∨ s.dataAddress 0 + n.toNat ≤ Config.memSize) ∧
      t = ({ s with disp := (s.drawn x y n).1 } : State).setV VF (flagByte (s.drawn x y n).2)

/-- The instruction cannot have its effect, and this is the fault it takes instead. -/
def Faults (s : State) (r : FaultRecord) : Instr → Prop
  | .call nnn => stackIsFull s.stackDepth s.stack.length = true ∧
      r = { code := .stackOverflow, word := encode (.call nnn), addr := s.pc.toNat }
  | .ldBVx x => Config.memSize < s.dataAddress 0 + 3 ∧
      r = { code := .memoryRange, word := encode (.ldBVx x), addr := max s.i.toNat Config.memSize }
  | .storeRegs x => Config.memSize < s.dataAddress 0 + (x.toNat + 1) ∧
      r = { code := .memoryRange, word := encode (.storeRegs x), addr := max s.i.toNat Config.memSize }
  | .loadRegs x => Config.memSize < s.dataAddress 0 + (x.toNat + 1) ∧
      r = { code := .memoryRange, word := encode (.loadRegs x), addr := max s.i.toNat Config.memSize }
  | .drw x y n => n.toNat ≠ 0 ∧ Config.memSize < s.dataAddress 0 + n.toNat ∧
      r = { code := .memoryRange, word := encode (.drw x y n), addr := max s.i.toNat Config.memSize }
  | .cls | .ret | .sys _ | .jp _ | .seImm _ _ | .sneImm _ _ | .seReg _ _ | .ldImm _ _ | .addImm _ _
  | .ldReg _ _ | .orReg _ _ | .andReg _ _ | .xorReg _ _ | .addReg _ _ | .sub _ _ | .shr _ _ | .subn _ _
  | .shl _ _ | .sneReg _ _ | .ldI _ | .jpV0 _ | .rnd _ _ | .skp _ | .sknp _ | .ldVxDt _
  | .ldVxK _ | .ldDtVx _ | .ldStVx _ | .addIVx _ | .ldFVx _ => False

/-- Executing an instruction: its effect, or the fault it takes. -/
theorem exec_cases {i : Instr} {s t : State} (h : exec i s = .next t) :
    Effect s t i ∨ ∃ r, Faults s r i ∧ t = s.raise r := by
  cases i with
  | ret =>
    simp only [exec, execRet] at h
    split at h <;> injection h with h <;> subst h
    · next hp => exact .inl (.inl ⟨(State.pop_eq_none_iff s).mp hp, rfl⟩)
    · next v p hp =>
      obtain ⟨h1, h2⟩ := State.pop_eq_some hp
      exact .inl (.inr ⟨p.stack, v, h1, by rw [h2]; rfl⟩)
  | call nnn =>
    simp only [exec, execCall] at h
    split at h <;> injection h with h <;> subst h
    · next hp => exact .inr ⟨_, ⟨(State.push_eq_none_iff ..).mp hp, rfl⟩, rfl⟩
    · next p hp =>
      obtain ⟨rfl, hf⟩ := State.push_eq_some hp
      exact .inl ⟨hf, rfl⟩
  | ldVxK x =>
    simp only [exec, execLdVxK] at h
    split at h <;> injection h with h <;> subst h
    · exact .inl (.inl ⟨‹_›, rfl⟩)
    · exact .inl (.inr ⟨_, ‹_›, rfl⟩)
  | ldBVx x =>
    injection h with h; subst h
    obtain ⟨hr, e⟩ | ⟨⟨-, hr⟩, e⟩ := State.withRange_cases s (.ldBVx x) (s.dataAddress 0) 3
      { s with mem := s.mem.writeBytes (s.dataAddress 0) (bcdDigits (s.getV x)) }
    · exact .inl ⟨by omega, e⟩
    · exact .inr ⟨_, ⟨hr, rfl⟩, e⟩
  | storeRegs x =>
    injection h with h; subst h
    obtain ⟨hr, e⟩ | ⟨⟨-, hr⟩, e⟩ := State.withRange_cases s (.storeRegs x) (s.dataAddress 0) (x.toNat + 1)
      { s with mem := s.mem.writeBytes (s.dataAddress 0) (s.blockV x) }
    · exact .inl ⟨by omega, e⟩
    · exact .inr ⟨_, ⟨hr, rfl⟩, e⟩
  | loadRegs x =>
    injection h with h; subst h
    obtain ⟨hr, e⟩ | ⟨⟨-, hr⟩, e⟩ := State.withRange_cases s (.loadRegs x) (s.dataAddress 0) (x.toNat + 1)
      { s with v := loadBlock s.v 0 (s.mem.readBytes (s.dataAddress 0) (x.toNat + 1)) }
    · exact .inl ⟨by omega, e⟩
    · exact .inr ⟨_, ⟨hr, rfl⟩, e⟩
  | drw x y n =>
    injection h with h; subst h
    obtain ⟨hr, e⟩ | ⟨⟨hn, hr⟩, e⟩ := State.withRange_cases s (.drw x y n) (s.dataAddress 0) n.toNat
      (({ s with disp := (s.drawn x y n).1 } : State).setV VF (flagByte (s.drawn x y n).2))
    · exact .inl ⟨hr, e⟩
    · exact .inr ⟨_, ⟨hn, hr, rfl⟩, e⟩
  | seImm _ _ | sneImm _ _ | seReg _ _ | sneReg _ _ | skp _ | sknp _ =>
    injection h with h; subst h; exact .inl (State.skipIf_eq _ _)
  | _ => injection h with h; exact .inl h.symm

end Sys2Proof.Machine
end

