-- ==== Sys2Proof/Laws/PerInstr.lean ====
section
/-! SUPPORT. Statements about every instruction as syntax, one lemma per constructor. -/

namespace Sys2Proof.Laws.EncodedFamily

open Sys2Proof

/-- The leading nibble that 30_encoding.md R88 gives the instruction's row. -/
def family : Instr → Nibble
  | .cls | .ret | .sys _ => 0x0#4
  | .jp _ => 0x1#4
  | .call _ => 0x2#4
  | .seImm _ _ => 0x3#4
  | .sneImm _ _ => 0x4#4
  | .seReg _ _ => 0x5#4
  | .ldImm _ _ => 0x6#4
  | .addImm _ _ => 0x7#4
  | .ldReg _ _ | .orReg _ _ | .andReg _ _ | .xorReg _ _ | .addReg _ _ | .sub _ _ | .shr _ _ | .subn _ _ | .shl _ _ => 0x8#4
  | .sneReg _ _ => 0x9#4
  | .ldI _ => 0xA#4
  | .jpV0 _ => 0xB#4
  | .rnd _ _ => 0xC#4
  | .drw _ _ _ => 0xD#4
  | .skp _ | .sknp _ => 0xE#4
  | .ldVxDt _ | .ldVxK _ | .ldDtVx _ | .ldStVx _ | .addIVx _ | .ldFVx _ | .ldBVx _ | .storeRegs _ | .loadRegs _ => 0xF#4

/-- The word of the instruction is in the family of its row. -/
def Statement (i : Instr) : Prop := opField (encode i) = family i

theorem cls : Statement .cls := by rfl
theorem ret : Statement .ret := by rfl
theorem sys (nnn : Addr12) : Statement (.sys nnn) := opField_wordNNN _ _
theorem jp (nnn : Addr12) : Statement (.jp nnn) := opField_wordNNN _ _
theorem call (nnn : Addr12) : Statement (.call nnn) := opField_wordNNN _ _
theorem seImm (x : Reg) (nn : Byte) : Statement (.seImm x nn) := opField_wordXNN _ _ _
theorem sneImm (x : Reg) (nn : Byte) : Statement (.sneImm x nn) := opField_wordXNN _ _ _
theorem seReg (x : Reg) (y : Reg) : Statement (.seReg x y) := opField_wordXYN _ _ _ _
theorem ldImm (x : Reg) (nn : Byte) : Statement (.ldImm x nn) := opField_wordXNN _ _ _
theorem addImm (x : Reg) (nn : Byte) : Statement (.addImm x nn) := opField_wordXNN _ _ _
theorem ldReg (x : Reg) (y : Reg) : Statement (.ldReg x y) := opField_wordXYN _ _ _ _
theorem orReg (x : Reg) (y : Reg) : Statement (.orReg x y) := opField_wordXYN _ _ _ _
theorem andReg (x : Reg) (y : Reg) : Statement (.andReg x y) := opField_wordXYN _ _ _ _
theorem xorReg (x : Reg) (y : Reg) : Statement (.xorReg x y) := opField_wordXYN _ _ _ _
theorem addReg (x : Reg) (y : Reg) : Statement (.addReg x y) := opField_wordXYN _ _ _ _
theorem sub (x : Reg) (y : Reg) : Statement (.sub x y) := opField_wordXYN _ _ _ _
theorem shr (x : Reg) (y : Reg) : Statement (.shr x y) := opField_wordXYN _ _ _ _
theorem subn (x : Reg) (y : Reg) : Statement (.subn x y) := opField_wordXYN _ _ _ _
theorem shl (x : Reg) (y : Reg) : Statement (.shl x y) := opField_wordXYN _ _ _ _
theorem sneReg (x : Reg) (y : Reg) : Statement (.sneReg x y) := opField_wordXYN _ _ _ _
theorem ldI (nnn : Addr12) : Statement (.ldI nnn) := opField_wordNNN _ _
theorem jpV0 (nnn : Addr12) : Statement (.jpV0 nnn) := opField_wordNNN _ _
theorem rnd (x : Reg) (nn : Byte) : Statement (.rnd x nn) := opField_wordXNN _ _ _
theorem drw (x : Reg) (y : Reg) (n : Nibble) : Statement (.drw x y n) := opField_wordXYN _ _ _ _
theorem skp (x : Reg) : Statement (.skp x) := opField_wordXNN _ _ _
theorem sknp (x : Reg) : Statement (.sknp x) := opField_wordXNN _ _ _
theorem ldVxDt (x : Reg) : Statement (.ldVxDt x) := opField_wordXNN _ _ _
theorem ldVxK (x : Reg) : Statement (.ldVxK x) := opField_wordXNN _ _ _
theorem ldDtVx (x : Reg) : Statement (.ldDtVx x) := opField_wordXNN _ _ _
theorem ldStVx (x : Reg) : Statement (.ldStVx x) := opField_wordXNN _ _ _
theorem addIVx (x : Reg) : Statement (.addIVx x) := opField_wordXNN _ _ _
theorem ldFVx (x : Reg) : Statement (.ldFVx x) := opField_wordXNN _ _ _
theorem ldBVx (x : Reg) : Statement (.ldBVx x) := opField_wordXNN _ _ _
theorem storeRegs (x : Reg) : Statement (.storeRegs x) := opField_wordXNN _ _ _
theorem loadRegs (x : Reg) : Statement (.loadRegs x) := opField_wordXNN _ _ _

end Sys2Proof.Laws.EncodedFamily
end

