-- ==== Sys2Proof/Tests/Slice0.lean ====
section
/-! SUPPORT. The model's own tests, their expected results from 95_test_vectors.md (its ids are cited), and a witness
for the hypotheses of each obligation. -/

namespace Sys2Proof.Tests

open Sys2Proof Sys2Proof.Machine

/-! ### Helpers -/

/-- The state after reset with this word at 0x200 and these registers, before changes a test makes to it. -/
def start (w : Nat) (regs : List (Reg × Byte)) : State :=
  (regs.foldl (fun s r => s.setV r.1 r.2) State.reset).withFetchWord 16 w

/-- The state with this byte in memory. -/
def withByte (s : State) (a : Nat) (b : Byte) : State := { s with mem := s.mem.write a b }

/-- The state with this pixel set. -/
def withPixel (s : State) (x y : Nat) : State := { s with disp := s.disp.setPixel x y true }

/-- The state with this key held. -/
def withKey (s : State) (k : Fin 16) : State := s.keyEvent k true

/-- A stack of so many return addresses. -/
def stackOf (n : Nat) : List Word := (List.range n).map (fun k => BitVec.ofNat 16 (0x200 + 2 * k))

/-- The outcome is a next state, and it is like this. -/
def sat (o : Result) (p : State → Bool) : Bool :=
  match o with
  | .next t => p t
  | .fault _ => false
  | .refused _ => false

theorem exists_of_sat {o : Result} {p : State → Bool} (h : sat o p = true) : ∃ t, o = .next t ∧ p t = true := by
  cases o with
  | next t => exact ⟨t, rfl, h⟩
  | fault _ => exact Bool.noConfusion h
  | refused _ => exact Bool.noConfusion h

/-- The tick ends without a fault, in a state like this. -/
def ticks (s : State) (p : State → Bool) : Bool := sat (step s) (fun t => decide (t.report = .ok) && p t)

/-- The tick ends in this fault, in a state like this. -/
def faults (s : State) (r : FaultRecord) (p : State → Bool) : Bool :=
  sat (step s) (fun t => decide (t.report = .fault r) && p t)

/-! ### Well-formed instructions -/

theorem test_wellFormed_refuses_sys_0E0 : (Instr.sys 0x0E0#12).wellFormed = false := by decide
theorem test_wellFormed_refuses_sys_0EE : (Instr.sys 0x0EE#12).wellFormed = false := by decide
theorem test_wellFormed_sys_0E1 : (Instr.sys 0x0E1#12).wellFormed = true := by decide

/-! ### Decoding: the words of 95_test_vectors.md 2.1 -/

theorem test_decode_family0 :
    decodeWord 0x00E0#16 = .instr .cls ∧
    decodeWord 0x00EE#16 = .instr .ret ∧
    decodeWord 0x00E1#16 = .instr (.sys 0x0E1#12) ∧
    decodeWord 0x0000#16 = .instr (.sys 0x000#12) ∧
    decodeWord 0x00FD#16 = .instr (.sys 0x0FD#12) ∧
    decodeWord 0x0FFF#16 = .instr (.sys 0xFFF#12) := by decide

theorem test_decode_jumps :
    decodeWord 0x1ABC#16 = .instr (.jp 0xABC#12) ∧
    decodeWord 0x2F00#16 = .instr (.call 0xF00#12) ∧
    decodeWord 0xB123#16 = .instr (.jpV0 0x123#12) := by decide

theorem test_decode_skips :
    decodeWord 0x3A10#16 = .instr (.seImm 0xA#4 0x10#8) ∧
    decodeWord 0x4B22#16 = .instr (.sneImm 0xB#4 0x22#8) ∧
    decodeWord 0x5AB0#16 = .instr (.seReg 0xA#4 0xB#4) ∧
    decodeWord 0x9AB0#16 = .instr (.sneReg 0xA#4 0xB#4) ∧
    decodeWord 0xE19E#16 = .instr (.skp 0x1#4) ∧
    decodeWord 0xE1A1#16 = .instr (.sknp 0x1#4) := by decide

theorem test_decode_immediates :
    decodeWord 0x6CFF#16 = .instr (.ldImm 0xC#4 0xFF#8) ∧
    decodeWord 0x7007#16 = .instr (.addImm 0x0#4 0x07#8) ∧
    decodeWord 0xA123#16 = .instr (.ldI 0x123#12) ∧
    decodeWord 0xC5F0#16 = .instr (.rnd 0x5#4 0xF0#8) ∧
    decodeWord 0xD125#16 = .instr (.drw 0x1#4 0x2#4 0x5#4) ∧
    decodeWord 0xD120#16 = .instr (.drw 0x1#4 0x2#4 0x0#4) := by decide

theorem test_decode_family8 :
    decodeWord 0x8AB0#16 = .instr (.ldReg 0xA#4 0xB#4) ∧
    decodeWord 0x8AB1#16 = .instr (.orReg 0xA#4 0xB#4) ∧
    decodeWord 0x8AB2#16 = .instr (.andReg 0xA#4 0xB#4) ∧
    decodeWord 0x8AB3#16 = .instr (.xorReg 0xA#4 0xB#4) ∧
    decodeWord 0x8AB4#16 = .instr (.addReg 0xA#4 0xB#4) ∧
    decodeWord 0x8AB5#16 = .instr (.sub 0xA#4 0xB#4) ∧
    decodeWord 0x8AB6#16 = .instr (.shr 0xA#4 0xB#4) ∧
    decodeWord 0x8AB7#16 = .instr (.subn 0xA#4 0xB#4) ∧
    decodeWord 0x8ABE#16 = .instr (.shl 0xA#4 0xB#4) := by decide

theorem test_decode_familyF :
    decodeWord 0xF107#16 = .instr (.ldVxDt 0x1#4) ∧
    decodeWord 0xF10A#16 = .instr (.ldVxK 0x1#4) ∧
    decodeWord 0xF115#16 = .instr (.ldDtVx 0x1#4) ∧
    decodeWord 0xF118#16 = .instr (.ldStVx 0x1#4) ∧
    decodeWord 0xF11E#16 = .instr (.addIVx 0x1#4) ∧
    decodeWord 0xF129#16 = .instr (.ldFVx 0x1#4) ∧
    decodeWord 0xF133#16 = .instr (.ldBVx 0x1#4) ∧
    decodeWord 0xF155#16 = .instr (.storeRegs 0x1#4) ∧
    decodeWord 0xF165#16 = .instr (.loadRegs 0x1#4) := by decide

theorem test_decode_unknown :
    [0x5AB1#16, 0x9ABF#16, 0x8AB8#16, 0x8AB9#16, 0x8ABA#16, 0x8ABB#16, 0x8ABC#16, 0x8ABD#16, 0x8ABF#16].all
      (fun w => decide (decodeWord w = .unknownOpcode w)) = true := by decide

theorem test_decode_unknown_2 :
    [0xE19F#16, 0xE000#16, 0xE1A0#16, 0xF100#16, 0xF130#16, 0xF175#16, 0xF185#16, 0xF1FF#16, 0xFFFF#16].all
      (fun w => decide (decodeWord w = .unknownOpcode w)) = true := by decide

/-- The word laid out as two bytes, the high byte first (decision D1). -/
theorem test_decodeTableWord : decodeTableWord 16 0xD125 = some (.drw 0x1#4 0x2#4 0x5#4) ∧
    decodeTableWord 16 0x8AB8 = none := by decide

theorem test_decode_too_short : decodeBytes [0x12#8] = .tooShort := by decide

/-! ### One step of each instruction -/

/-- T1 -/
theorem test_sys : ticks (start 0x0123 [])
    (fun t => t.pc == 0x202#16) = true := by decide

/-- G13 -/
theorem test_cls : ticks (withPixel (start 0x00E0 []) 9 9)
    (fun t => !t.disp.pixel 9 9 && t.pc == 0x202#16) = true := by decide

/-- T8 -/
theorem test_ret : ticks { start 0x00EE [] with stack := [0x0206#16, 0x0300#16] }
    (fun t => t.pc == 0x300#16 && t.stack == [0x0206#16]) = true := by decide

/-- S6, T9 -/
theorem test_ret_empty : ticks (start 0x00EE [])
    (fun t => t.pc == 0x202#16 && t.stack == []) = true := by decide

/-- T2 -/
theorem test_jp : ticks (start 0x1204 [])
    (fun t => t.pc == 0x204#16) = true := by decide

/-- T3 -/
theorem test_jp_self : ticks (start 0x1200 [])
    (fun t => t.pc == 0x200#16) = true := by decide

/-- T6 -/
theorem test_call : ticks (start 0x2210 [])
    (fun t => t.pc == 0x210#16 && t.stack == [0x0202#16]) = true := by decide

/-- T7 -/
theorem test_call_full : faults { start 0x2210 [] with stack := stackOf 16 } ⟨.stackOverflow, 0x2210#16, 0x202⟩
    (fun t => t.stack == stackOf 16 && t.pc == 0x202#16 && t.fault == some ⟨.stackOverflow, 0x2210#16, 0x202⟩) = true := by decide

/-- T12: the X nibble selects nothing -/
theorem test_jpV0 : ticks (start 0xB300 [(0x0#4, 0x04#8), (0x3#4, 0x99#8)])
    (fun t => t.pc == 0x304#16) = true := by decide

/-- T11 -/
theorem test_jpV0_top : ticks (start 0xBFFF [(0x0#4, 0xFF#8)])
    (fun t => t.pc == 0x10FE#16) = true := by decide

/-- S9, T14 -/
theorem test_seImm : ticks (start 0x3A10 [(0xA#4, 0x10#8)])
    (fun t => t.pc == 0x204#16) = true := by decide

/-- T13 -/
theorem test_seImm_no : ticks (start 0x3A10 [(0xA#4, 0x11#8)])
    (fun t => t.pc == 0x202#16) = true := by decide

/-- T16 -/
theorem test_sneImm : ticks (start 0x4106 [(0x1#4, 0x05#8)])
    (fun t => t.pc == 0x204#16) = true := by decide

/-- T15 -/
theorem test_sneImm_no : ticks (start 0x4105 [(0x1#4, 0x05#8)])
    (fun t => t.pc == 0x202#16) = true := by decide

/-- T17 -/
theorem test_seReg : ticks (start 0x5120 [(0x1#4, 0x33#8), (0x2#4, 0x33#8)])
    (fun t => t.pc == 0x204#16) = true := by decide

/-- T18 -/
theorem test_seReg_no : ticks (start 0x5120 [(0x1#4, 0x33#8), (0x2#4, 0x34#8)])
    (fun t => t.pc == 0x202#16) = true := by decide

/-- T20 -/
theorem test_sneReg : ticks (start 0x9120 [(0x1#4, 0x33#8), (0x2#4, 0x34#8)])
    (fun t => t.pc == 0x204#16) = true := by decide

/-- T21 -/
theorem test_sneReg_same : ticks (start 0x9110 [(0x1#4, 0x33#8)])
    (fun t => t.pc == 0x202#16) = true := by decide

/-- T23 -/
theorem test_ldVxK : ticks (withKey (withKey (start 0xF10A []) 7) 3)
    (fun t => t.getV 0x1#4 == 0x03#8 && t.pc == 0x202#16) = true := by decide

/-- T22 -/
theorem test_ldVxK_none : ticks (start 0xF10A [(0x1#4, 0x55#8)])
    (fun t => t.getV 0x1#4 == 0x55#8 && t.pc == 0x200#16) = true := by decide

/-- A1 -/
theorem test_ldImm : ticks (start 0x61AB [(0xF#4, 0x55#8)])
    (fun t => t.getV 0x1#4 == 0xAB#8 && t.getV 0xF#4 == 0x55#8) = true := by decide

/-- A3: a wrap, no carry flag -/
theorem test_addImm : ticks (start 0x7101 [(0x1#4, 0xFF#8)])
    (fun t => t.getV 0x1#4 == 0x00#8 && t.getV 0xF#4 == 0x00#8) = true := by decide

/-- A5 -/
theorem test_addImm_VF : ticks (start 0x7F02 [(0xF#4, 0xFF#8)])
    (fun t => t.getV 0xF#4 == 0x01#8) = true := by decide

/-- A6 -/
theorem test_ldReg : ticks (start 0x8120 [(0x2#4, 0x7C#8), (0xF#4, 0x55#8)])
    (fun t => t.getV 0x1#4 == 0x7C#8 && t.getV 0xF#4 == 0x55#8) = true := by decide

/-- A7 -/
theorem test_orReg : ticks (start 0x8121 [(0x1#4, 0xF0#8), (0x2#4, 0x0F#8), (0xF#4, 0x55#8)])
    (fun t => t.getV 0x1#4 == 0xFF#8 && t.getV 0xF#4 == 0x55#8) = true := by decide

/-- A8 -/
theorem test_andReg : ticks (start 0x8122 [(0x1#4, 0xF0#8), (0x2#4, 0x3C#8), (0xF#4, 0x55#8)])
    (fun t => t.getV 0x1#4 == 0x30#8 && t.getV 0xF#4 == 0x55#8) = true := by decide

/-- A9 -/
theorem test_xorReg : ticks (start 0x8123 [(0x1#4, 0xF0#8), (0x2#4, 0x3C#8), (0xF#4, 0x55#8)])
    (fun t => t.getV 0x1#4 == 0xCC#8 && t.getV 0xF#4 == 0x55#8) = true := by decide

/-- A11 -/
theorem test_addReg : ticks (start 0x8124 [(0x1#4, 0xFF#8), (0x2#4, 0x01#8)])
    (fun t => t.getV 0x1#4 == 0x00#8 && t.getV 0xF#4 == 0x01#8) = true := by decide

/-- A15: the flag wins over the sum -/
theorem test_addReg_VF : ticks (start 0x8F24 [(0x2#4, 0x01#8), (0xF#4, 0xFF#8)])
    (fun t => t.getV 0xF#4 == 0x01#8) = true := by decide

/-- A19 -/
theorem test_sub : ticks (start 0x8125 [(0x1#4, 0x03#8), (0x2#4, 0x05#8), (0xF#4, 0x01#8)])
    (fun t => t.getV 0x1#4 == 0xFE#8 && t.getV 0xF#4 == 0x00#8) = true := by decide

/-- A20 -/
theorem test_sub_equal : ticks (start 0x8125 [(0x1#4, 0x07#8), (0x2#4, 0x07#8)])
    (fun t => t.getV 0x1#4 == 0x00#8 && t.getV 0xF#4 == 0x01#8) = true := by decide

/-- A25 -/
theorem test_subn : ticks (start 0x8127 [(0x1#4, 0x03#8), (0x2#4, 0x05#8)])
    (fun t => t.getV 0x1#4 == 0x02#8 && t.getV 0xF#4 == 0x01#8) = true := by decide

/-- A26 -/
theorem test_subn_borrow : ticks (start 0x8127 [(0x1#4, 0x05#8), (0x2#4, 0x03#8), (0xF#4, 0x01#8)])
    (fun t => t.getV 0x1#4 == 0xFE#8 && t.getV 0xF#4 == 0x00#8) = true := by decide

/-- A28: V[2] is unused -/
theorem test_shr : ticks (start 0x8126 [(0x1#4, 0x05#8), (0x2#4, 0xAA#8)])
    (fun t => t.getV 0x1#4 == 0x02#8 && t.getV 0x2#4 == 0xAA#8 && t.getV 0xF#4 == 0x01#8) = true := by decide

/-- A33 -/
theorem test_shr_VF : ticks (start 0x8F06 [(0xF#4, 0x02#8)])
    (fun t => t.getV 0xF#4 == 0x00#8) = true := by decide

/-- A34: V[2] is unused -/
theorem test_shl : ticks (start 0x812E [(0x1#4, 0x81#8), (0x2#4, 0xAA#8)])
    (fun t => t.getV 0x1#4 == 0x02#8 && t.getV 0x2#4 == 0xAA#8 && t.getV 0xF#4 == 0x01#8) = true := by decide

/-- A38 -/
theorem test_shl_VF : ticks (start 0x8F0E [(0xF#4, 0x7F#8)])
    (fun t => t.getV 0xF#4 == 0x00#8) = true := by decide

/-- A40: whatever byte is drawn, it is masked, and `VF` is left alone. -/
theorem test_rnd_mask_zero : ∃ t, exec (.rnd 0x1#4 0x00#8) (start 0xC100 [(0x1#4, 0xAA#8), (0xF#4, 0x55#8)]) = .next t ∧
    t.getV 0x1#4 = 0x00#8 ∧ t.getV 0xF#4 = 0x55#8 :=
  ⟨_, rfl, by rw [State.getV_setV_same, BitVec.and_zero], by rw [State.getV_setV_ne _ _ (by decide)]; decide⟩

/-- M1 -/
theorem test_ldI : ticks (start 0xAFFF [])
    (fun t => t.i == 0x0FFF#16) = true := by decide

/-- M3: neither a flag nor a 12-bit mask -/
theorem test_addIVx : ticks { start 0xF21E [(0x2#4, 0x01#8)] with i := 0x0FFF#16 }
    (fun t => t.i == 0x1000#16 && t.getV 0xF#4 == 0x00#8) = true := by decide

/-- M4 -/
theorem test_addIVx_wrap : ticks { start 0xF21E [(0x2#4, 0x02#8)] with i := 0xFFFF#16 }
    (fun t => t.i == 0x0001#16) = true := by decide

/-- S12 -/
theorem test_ldFVx : ticks (start 0xFA29 [(0xA#4, 0x0A#8)])
    (fun t => t.i == 0x0032#16) = true := by decide

/-- M8 -/
theorem test_ldFVx_whole_byte : ticks (start 0xF329 [(0x3#4, 0xFF#8)])
    (fun t => t.i == 0x04FB#16) = true := by decide

/-- M14: the top of memory -/
theorem test_ldBVx : ticks { start 0xF033 [(0x0#4, 0x7B#8)] with i := 0xFFD#16 }
    (fun t => t.mem.readBytes 0xFFD 3 == [0x01#8, 0x02#8, 0x03#8] && t.i == 0xFFD#16) = true := by decide

/-- M15 -/
theorem test_ldBVx_out_of_range : faults { start 0xF033 [(0x0#4, 0x7B#8)] with i := 0xFFE#16 } ⟨.memoryRange, 0xF033#16, 0x1000⟩
    (fun t => t.mem.readBytes 0xFFE 2 == [0x00#8, 0x00#8] && t.pc == 0x202#16) = true := by decide

/-- M16 -/
theorem test_storeRegs : ticks { start 0xF255 [(0x0#4, 0x11#8), (0x1#4, 0x22#8), (0x2#4, 0x33#8), (0x3#4, 0x44#8)] with i := 0x300#16 }
    (fun t => t.mem.readBytes 0x300 4 == [0x11#8, 0x22#8, 0x33#8, 0x00#8] && t.i == 0x300#16) = true := by decide

/-- M18 -/
theorem test_storeRegs_out_of_range : faults { start 0xF155 [(0x0#4, 0x5A#8)] with i := 0xFFF#16 } ⟨.memoryRange, 0xF155#16, 0x1000⟩
    (fun t => t.mem.read 0xFFF == 0x00#8) = true := by decide

/-- M20 -/
theorem test_loadRegs : ticks { withByte (withByte (withByte (start 0xF265 [(0x3#4, 0x77#8)]) 0x300 0x02#8) 0x301 0x05#8) 0x302 0x04#8 with i := 0x300#16 }
    (fun t => t.getV 0x0#4 == 0x02#8 && t.getV 0x1#4 == 0x05#8 && t.getV 0x2#4 == 0x04#8 && t.getV 0x3#4 == 0x77#8 && t.i == 0x300#16) = true := by decide

/-- M22 -/
theorem test_loadRegs_out_of_range : faults { start 0xF065 [(0x0#4, 0x5A#8)] with i := 0x1234#16 } ⟨.memoryRange, 0xF065#16, 0x1234⟩
    (fun t => t.getV 0x0#4 == 0x5A#8) = true := by decide

/-- M24 -/
theorem test_ldVxDt : ticks { start 0xF207 [] with dt := 0x06#8 }
    (fun t => t.getV 0x2#4 == 0x06#8 && t.dt == 0x06#8) = true := by decide

/-- M25 -/
theorem test_ldDtVx : ticks (start 0xF115 [(0x1#4, 0x07#8)])
    (fun t => t.dt == 0x07#8 && t.st == 0x00#8) = true := by decide

/-- M26 -/
theorem test_ldStVx : ticks (start 0xF118 [(0x1#4, 0x1E#8)])
    (fun t => t.st == 0x1E#8 && t.dt == 0x00#8) = true := by decide

/-- G6: a pixel cleared, one set -/
theorem test_drw_collision : ticks { withPixel (withByte (start 0xD121 []) 0x300 0xC0#8) 1 0 with i := 0x300#16 }
    (fun t => t.disp.pixel 0 0 && !t.disp.pixel 1 0 && t.getV 0xF#4 == 0x01#8) = true := by decide

/-- G3 and G4: the body is clipped, the anchor wrapped -/
theorem test_drw_clip : ticks { withByte (start 0xD121 [(0x1#4, 0x7C#8), (0x2#4, 0x21#8)]) 0x300 0xFF#8 with i := 0x300#16 }
    (fun t => t.disp.pixel 60 1 && t.disp.pixel 63 1 && !t.disp.pixel 0 1 && t.getV 0xF#4 == 0x00#8) = true := by decide

/-- K3: the low nibble only -/
theorem test_skp : ticks (withKey (start 0xE19E [(0x1#4, 0x1A#8)]) 10)
    (fun t => t.pc == 0x204#16) = true := by decide

/-- K2 at 0x200 -/
theorem test_skp_no : ticks (start 0xE19E [(0x1#4, 0x07#8)])
    (fun t => t.pc == 0x202#16) = true := by decide

/-- K4 -/
theorem test_sknp : ticks (start 0xE1A1 [(0x1#4, 0x07#8)])
    (fun t => t.pc == 0x204#16) = true := by decide

/-- K6 -/
theorem test_sknp_held : ticks (withKey (start 0xE1A1 [(0x1#4, 0xF7#8)]) 7)
    (fun t => t.pc == 0x202#16) = true := by decide

/-! ### The tick -/

/-- X4 -/
theorem test_unknown_opcode : faults (start 0x8AB8 []) ⟨.unknownOpcode, 0x8AB8#16, 0x200⟩ (fun t => t.pc == 0x202#16) = true := by decide

/-- X3: the second byte is missing -/
theorem test_fetch_out_of_range : faults { State.reset with pc := 0xFFF#16 } ⟨.memoryRange, 0x0000#16, 0x1000⟩ (fun t => t.pc == 0xFFF#16) = true := by decide

/-- X6 -/
theorem test_fault_is_sticky : faults { start 0xFFFF [] with fault := some ⟨.unknownOpcode, 0x8AB8#16, 0x200⟩ } ⟨.unknownOpcode, 0xFFFF#16, 0x200⟩
    (fun t => t.fault == some ⟨.unknownOpcode, 0x8AB8#16, 0x200⟩) = true := by decide

/-- M27 -/
theorem test_timerDec_stops_at_zero : decide ((({ State.reset with dt := 0x01#8 } : State).timerDec.dt, State.reset.timerDec.st) = (0x00#8, 0x00#8)) = true := by decide

/-- R31 with other capacities than the default: a call on an unbounded stack of 16 entries pushes, and one on a full
stack of one entry overflows. -/
theorem test_stackDepth :
    ticks { start 0x2210 [] with stackDepth := .unbounded, stack := stackOf 16 }
      (fun t => t.stack.length == 17 && t.pc == 0x210#16) = true ∧
    faults { start 0x2210 [] with stackDepth := .bounded 1 (by decide), stack := stackOf 1 }
      ⟨.stackOverflow, 0x2210#16, 0x202⟩ (fun t => t.stack == stackOf 1) = true := by decide

theorem test_reset_memory_wf : State.reset.mem.wf = true := by decide

/-! ### A witness for the hypotheses of each obligation

A theorem here is named after the obligation whose hypotheses it meets; `_2`, `_3` meet those of a further clause. -/

theorem witness_DecodeUndoesEncode : (Instr.drw 0xF#4 0x0#4 0xF#4).wellFormed = true := by decide

theorem witness_EncodeUndoesDecode : decodeWord 0xF0FE#16 = .unknownOpcode 0xF0FE#16 ∧
    decodeWord 0x0FFF#16 = .instr (.sys 0xFFF#12) := by decide

theorem witness_StepExecutesDecodedInstruction : ∃ s : State, s.pc.toNat = 0xFFE ∧
    decodeWord (wordOfBytes (s.mem.read s.pc.toNat) (s.mem.read (s.pc.toNat + 1))) = .instr (.ldImm 0x0#4 0x01#8) :=
  ⟨({ State.reset with pc := 0xFFE#16 } : State).withFetchWord 16 0x6001, by decide⟩

theorem witness_FetchOutOfRangeTakesFault : 0xFFF ≤ ({ State.reset with pc := 0xFFF#16 } : State).pc.toNat := by decide

theorem witness_UnknownOpcodeTakesFault : ∃ s : State, s.pc.toNat ≤ 0xFFE ∧
    0x8AB8#16 = wordOfBytes (s.mem.read s.pc.toNat) (s.mem.read (s.pc.toNat + 1)) ∧
    decodeWord 0x8AB8#16 = .unknownOpcode 0x8AB8#16 := ⟨start 0x8AB8 [], by decide⟩

theorem witness_TickRecordsTheFirstFault : ∃ s t : State, step s = .next t ∧ decide (t.report = .ok) = true :=
  ⟨start 0x6001 [], exists_of_sat (by decide)⟩

theorem witness_TickRecordsTheFirstFault_2 : ∃ s t : State, step s = .next t ∧
    decide (t.report = .fault ⟨.unknownOpcode, 0xFFFF#16, 0x200⟩) = true := ⟨start 0xFFFF [], exists_of_sat (by decide)⟩

/-- A run with a tick that takes a second fault, from a state with a fault recorded. -/
theorem witness_FaultSurvivesRunsWithoutReset : ∃ (moves : List Move) (s t : State),
    (∀ rom font seed, Move.reset rom font seed ∉ moves) ∧ drive s moves = .next t ∧
    s.fault = some ⟨.memoryRange, 0x0000#16, 0x1000⟩ := by
  refine ⟨[.tick, .keyEvent 3 true, .timerDec, .displayRead 1 2],
    { start 0xFFFF [] with fault := some ⟨.memoryRange, 0x0000#16, 0x1000⟩ }, ?_⟩
  obtain ⟨t, ht, -⟩ := exists_of_sat (o := drive { start 0xFFFF [] with
    fault := some ⟨.memoryRange, 0x0000#16, 0x1000⟩ } [.tick, .keyEvent 3 true, .timerDec, .displayRead 1 2])
    (p := fun _ => true) (by decide)
  exact ⟨t, by simp, ht, rfl⟩

/-- A fault of the execute phase. -/
theorem witness_FaultedTickIsPrecise : ∃ s t : State, step s = .next t ∧
    decide (t.report = .fault ⟨.memoryRange, 0xF033#16, 0x1000⟩) = true :=
  ⟨{ start 0xF033 [] with i := 0xFFE#16 }, exists_of_sat (by decide)⟩

/-- A fault of the fetch, whose word is 0. -/
theorem witness_ReportedWordIsTheFetchedWord : ∃ s t : State, step s = .next t ∧
    decide (t.report = .fault ⟨.memoryRange, 0x0000#16, 0x10FE⟩) = true :=
  ⟨{ State.reset with pc := 0x10FE#16 }, exists_of_sat (by decide)⟩

theorem witness_SelfJumpIsAFixedPoint : ∃ s : State, s.pc.toNat ≤ 0xFFE ∧ s.pc = zext16 0x200#12 ∧ s.report = .ok ∧
    decodeWord (wordOfBytes (s.mem.read s.pc.toNat) (s.mem.read (s.pc.toNat + 1))) = .instr (.jp 0x200#12) :=
  ⟨start 0x1200 [], by decide⟩

theorem witness_WaitingTickIsAFixedPoint : ∃ s : State, s.pc.toNat ≤ 0xFFE ∧ (∀ k < 16, s.keyHeld k = false) ∧
    s.report = .ok ∧
    decodeWord (wordOfBytes (s.mem.read s.pc.toNat) (s.mem.read (s.pc.toNat + 1))) = .instr (.ldVxK 0x1#4) :=
  ⟨start 0xF10A [], by decide⟩

/-- A state of the invariant with a full stack, a fault recorded and `pc` at its greatest value. -/
theorem witness_Inv : ∃ s : State, s.Inv ∧ s.stack.length = 16 ∧ s.pc = 0x10FE#16 ∧
    s.fault = some ⟨.stackOverflow, 0x2210#16, 0x1000⟩ := by
  refine ⟨{ State.reset with
      pc := 0x10FE#16, stack := List.replicate 16 0x1000#16, fault := some ⟨.stackOverflow, 0x2210#16, 0x1000⟩ },
    ⟨rfl, ?_, ?_, ?_, ?_, ?_⟩, rfl, rfl, rfl⟩
  · show (List.replicate 16 0x1000#16).length ≤ 16
    simp
  · intro a ha
    rw [List.eq_of_mem_replicate ha]
    decide
  · show (0x10FE#16).toNat ≤ 0x10FE
    decide
  · intro r hr
    obtain rfl := Option.some.inj hr
    exact ⟨by decide, by decide, by decide⟩
  · intro r hr
    exact TickReport.noConfusion hr

theorem inv_start (w : Nat) : (start w []).Inv := by
  refine ⟨?_, ?_, ?_, ?_, ?_, ?_⟩
  · simp only [start, State.withFetchWord, State.placeWord, List.foldl_nil]
    exact Memory.wf_writeWord _ _ Memory.wf_reset
  · show (0 : Nat) ≤ 16
    decide
  · intro a ha
    exact absurd ha (by simp [start, State.withFetchWord, State.reset])
  · show (0x0200#16).toNat ≤ 0x10FE
    decide
  · intro r hr
    exact Option.noConfusion rfl (heq_of_eq hr)
  · intro r hr
    exact TickReport.noConfusion hr

theorem witness_StepKeepsInvariant : ∃ s t : State, s.Inv ∧ step s = .next t :=
  let ⟨t, ht, _⟩ := exists_of_sat (o := step (start 0xF055 [])) (p := fun _ => true) (by decide)
  ⟨start 0xF055 [], t, inv_start _, ht⟩

theorem witness_DriverMovesKeepInvariant : ∃ (s t : State) (move : Move), s.Inv ∧ move.apply s = .next t :=
  ⟨start 0x1200 [], _, .keyEvent 15 true, inv_start _, rfl⟩

/-- The longest ROM there is. -/
theorem witness_ResetMovePlacesFontAndRom : ∃ rom font : List Byte, rom.length = 3584 ∧ font.length = 512 :=
  ⟨List.replicate 3584 0x12#8, List.replicate 512 0xF0#8, List.length_replicate, List.length_replicate⟩

theorem witness_KeysChangeOnlyByKeyEvents : ∃ s t : State, exec (.ldVxK 0x1#4) s = .next t ∧ decide (t.getV 0x1#4 = 0x03#8) = true :=
  ⟨withKey State.reset 3, exists_of_sat (by decide)⟩

theorem witness_KeysChangeOnlyByKeyEvents_2 : ∃ (s t : State) (move : Move), move.apply s = .next t ∧ t.key ≠ s.key :=
  ⟨State.reset, _, .keyEvent 15 true, rfl, by decide⟩

theorem witness_DriverMovesKeepInvariant_2 : ∃ (s t : State) (move : Move), move.apply s = .next t ∧
    s.stackDepth = .unbounded := ⟨{ State.reset with stackDepth := .unbounded }, _, .timerDec, rfl, rfl⟩

theorem witness_DisplayChangesOnlyByClsAndDrw : ∃ (s t : State) (move : Move), move.apply s = .next t ∧ t.disp ≠ s.disp := by
  obtain ⟨t, ht, hp⟩ := exists_of_sat (o := Move.apply (withPixel (start 0x00E0 []) 63 31) .tick)
    (p := fun t => !t.disp.pixel 63 31) (by decide)
  refine ⟨_, t, .tick, ht, fun h => ?_⟩
  rw [h] at hp
  exact absurd hp (by decide)

theorem witness_PartsHaveTheirWriters_mem : ∃ s t : State, exec (.storeRegs 0x0#4) s = .next t ∧ decide (t.mem ≠ s.mem) = true :=
  ⟨{ start 0x0000 [(0x0#4, 0x5A#8)] with i := 0xFFF#16 }, exists_of_sat (by decide)⟩

theorem witness_PartsHaveTheirWriters_i : ∃ s t : State, exec (.addIVx 0x0#4) s = .next t ∧ decide (t.i ≠ s.i) = true :=
  ⟨start 0x0000 [(0x0#4, 0x5A#8)], exists_of_sat (by decide)⟩

theorem witness_PartsHaveTheirWriters_stack : ∃ s t : State, exec (.call 0x300#12) s = .next t ∧ decide (t.stack ≠ s.stack) = true :=
  ⟨State.reset, exists_of_sat (by decide)⟩

theorem witness_PartsHaveTheirWriters_rng : ∃ (i : Instr) (s t : State), exec i s = .next t ∧ ∀ x nn, i ≠ .rnd x nn :=
  ⟨.jp 0x300#12, State.reset, _, rfl, fun _ _ h => Instr.noConfusion h⟩

theorem witness_PartsHaveTheirWriters_dt : ∃ s t : State, exec (.ldDtVx 0x0#4) s = .next t ∧ decide (t.dt ≠ s.dt) = true :=
  ⟨start 0x0000 [(0x0#4, 0x5A#8)], exists_of_sat (by decide)⟩

theorem witness_PartsHaveTheirWriters_st : ∃ s t : State, exec (.ldStVx 0x0#4) s = .next t ∧ decide (t.st ≠ s.st) = true :=
  ⟨start 0x0000 [(0x0#4, 0x5A#8)], exists_of_sat (by decide)⟩

theorem witness_PcHasItsWriters : ∃ s t : State, exec (.ldVxK 0x0#4) s = .next t ∧ decide (t.pc ≠ s.pc) = true :=
  ⟨State.reset, exists_of_sat (by decide)⟩

theorem witness_RegistersHaveTheirWriters : ∃ s t : State, exec (.addReg 0x0#4 0x0#4) s = .next t ∧
    decide (t.getV VF ≠ s.getV VF) = true := ⟨start 0x0000 [(0x0#4, 0x80#8)], exists_of_sat (by decide)⟩

theorem witness_FlagIsZeroOrOne : ∃ (i : Instr) (s t : State), writesFlag i = true ∧ exec i s = .next t ∧
    t.getV VF = 0x01#8 :=
  ⟨.addReg VF 0x0#4, start 0x0000 [(0x0#4, 0x01#8), (VF, 0xFF#8)], _, rfl, rfl, by decide⟩

/-- A draw that its fault ended: `VF` keeps what it held. -/
theorem witness_FlagIsZeroOrOne_2 : ∃ (s t : State), writesFlag (.drw 0x1#4 0x2#4 0x3#4) = true ∧
    exec (.drw 0x1#4 0x2#4 0x3#4) s = .next t ∧ t.getV VF = 0x07#8 ∧ 0x1000 < s.dataAddress 0 + 3 :=
  ⟨{ start 0x0000 [(VF, 0x07#8)] with i := 0xFFE#16 }, _, rfl, rfl, by decide⟩

theorem witness_UnreadPartsAreInvisible : ∃ s t : State, exec (.ldVxDt 0x0#4) s = .next t :=
  ⟨{ State.reset with st := 0x05#8 }, _, rfl⟩

theorem witness_RngIsReadByRndOnly : ∃ (i : Instr) (s t : State), (∀ x nn, i ≠ .rnd x nn) ∧ exec i s = .next t :=
  ⟨.ldVxDt 0x0#4, State.reset, _, fun _ _ h => Instr.noConfusion h, rfl⟩

theorem witness_RetPopsIntoPc : ({ State.reset with stack := [0x0206#16, 0x0300#16] } : State).stack =
    [0x0206#16] ++ [0x0300#16] := by decide

theorem witness_RetPopsIntoPc_2 : State.reset.stack = [] := by decide

/-- One entry is still free. -/
theorem witness_CallPushesAndJumps : ∃ n h, ({ State.reset with stack := stackOf 15 } : State).stackDepth = .bounded n h ∧
    ({ State.reset with stack := stackOf 15 } : State).stack.length ≠ n := ⟨16, by decide, rfl, by decide⟩

/-- Where a stack of 16 would be full, an unbounded one is not. -/
theorem witness_CallPushesAndJumps_unbounded : ∃ s : State, s.stackDepth = .unbounded ∧ s.stack.length = 16 :=
  ⟨{ State.reset with stackDepth := .unbounded, stack := stackOf 16 }, rfl, by decide⟩

/-- The smallest stack there can be, full. -/
theorem witness_CallPushesAndJumps_2 : ∃ s : State, ∃ n h, s.stackDepth = .bounded n h ∧ s.stack.length = n ∧ n = 1 :=
  ⟨{ State.reset with stackDepth := .bounded 1 (by decide), stack := stackOf 1 }, 1, by decide, rfl, rfl, rfl⟩

theorem witness_WaitForKeyTakesLeastHeld : ∃ s : State, s.keyHeld 15 = true ∧ ∀ j < 15, s.keyHeld j = false :=
  ⟨withKey State.reset 15, by decide⟩

theorem witness_WaitForKeyTakesLeastHeld_2 : ∀ k < 16, State.reset.keyHeld k = false := by decide

theorem witness_ReturnUndoesCall : ∃ s t : State, stackIsFull s.stackDepth s.stack.length = false ∧
    exec (.call 0x300#12) s = .next t := ⟨{ State.reset with stack := stackOf 15 }, _, by decide, rfl⟩

theorem witness_BcdStoresThreeDigits : ({ State.reset with i := 0xFFD#16 } : State).dataAddress 2 < 0x1000 := by decide

theorem witness_BcdStoresThreeDigits_2 : 0x1000 ≤ ({ State.reset with i := 0xFFE#16 } : State).dataAddress 2 := by decide

theorem witness_StoreRegistersFromIndex :
    ({ State.reset with i := 0xFF0#16 } : State).dataAddress (0xF#4).toNat < 0x1000 := by decide

theorem witness_StoreRegistersFromIndex_2 :
    0x1000 ≤ ({ State.reset with i := 0xFF1#16 } : State).dataAddress (0xF#4).toNat := by decide

theorem witness_LoadRegistersFromIndex :
    ({ State.reset with i := 0xFFF#16 } : State).dataAddress (0x0#4).toNat < 0x1000 := by decide

theorem witness_LoadRegistersFromIndex_2 :
    0x1000 ≤ ({ State.reset with i := 0xFFFF#16 } : State).dataAddress (0x0#4).toNat := by decide

theorem witness_LoadUndoesStore : ∃ s t : State, s.dataAddress (0x1#4).toNat < 0x1000 ∧
    exec (.storeRegs 0x1#4) s = .next t := ⟨{ State.reset with i := 0xFFE#16 }, _, by decide, rfl⟩

/-- Program P6 of 95_test_vectors.md at its fourth tick. -/
theorem witness_StoredWordIsExecutedNext : ∃ s t : State, s.dataAddress (0x1#4).toNat < 0x1000 ∧
    (0x0#4).toNat + 1 ≤ (0x1#4).toNat ∧ exec (.storeRegs 0x1#4) s = .next t ∧
    t.pc.toNat = s.dataAddress (0x0#4).toNat ∧
    decodeWord (wordOfBytes (s.getV 0x0#4) (s.getV (0x0#4 + 1))) = .instr (.jp 0x208#12) :=
  ⟨{ start 0x0000 [(0x0#4, 0x12#8), (0x1#4, 0x08#8)] with i := 0x0208#16, pc := 0x0208#16 }, _,
    by decide, by decide, rfl, by decide, by decide⟩

theorem witness_CanonicalMemoryIsDeterminedByItsBytes : ∃ m n : Memory, m ≠ [] ∧ m.wf = true ∧ n.wf = true ∧
    ∀ a, m.read a = n.read a := ⟨[(0x300, 0x01#8)], [(0x300, 0x01#8)], by decide, by decide, by decide, fun _ => rfl⟩

/-- No rows: no byte is needed, whatever `I` is. -/
theorem witness_DrawXorsAndReportsCollision : ∃ (n : Nibble) (s : State), s.i = 0xFFFF#16 ∧
    (n = 0x0#4 ∨ s.dataAddress 0 + n.toNat ≤ 0x1000) := ⟨0x0#4, { State.reset with i := 0xFFFF#16 }, by decide⟩

/-- The last byte there is. -/
theorem witness_DrawXorsAndReportsCollision_2 : ∃ (n : Nibble) (s : State), n ≠ 0x0#4 ∧
    s.dataAddress 0 + n.toNat = 0x1000 := ⟨0xF#4, { State.reset with i := 0xFF1#16 }, by decide⟩

theorem witness_DrawOutOfRangeTakesFault : ∃ (n : Nibble) (s : State), n ≠ 0x0#4 ∧
    0x1000 < s.dataAddress 0 + n.toNat := ⟨0xF#4, { State.reset with i := 0xFF2#16 }, by decide⟩

theorem witness_SecondDrawUndoesFirst : ∃ s t : State, (0x1#4 : Reg) ≠ VF ∧ (0x2#4 : Reg) ≠ VF ∧
    s.dataAddress 0 + (0x1#4).toNat ≤ 0x1000 ∧ exec (.drw 0x1#4 0x2#4 0x1#4) s = .next t :=
  ⟨{ State.reset with i := 0xFFF#16 }, _, by decide, by decide, by decide, rfl⟩


end Sys2Proof.Tests
end

section
/-! The keypad: no instruction and no tick writes it (10_state.md R39). -/

namespace Sys2Proof.Machine

open Sys2Proof

/-- No effect of an instruction reaches the keypad. -/
theorem Effect.key_eq {i : Instr} {s t : State} (h : Effect s t i) : t.key = s.key := by
  cases i with
  | ret => obtain ⟨-, rfl⟩ | ⟨_, _, -, rfl⟩ := h <;> rfl
  | ldVxK _ => obtain ⟨-, rfl⟩ | ⟨_, -, rfl⟩ := h <;> rfl
  | call _ | ldBVx _ | storeRegs _ | loadRegs _ | drw _ _ _ => obtain ⟨-, rfl⟩ := h; rfl
  | _ => cases h; rfl

/-- Executing an instruction keeps the keypad, whether it has its effect or takes a fault. -/
theorem exec_key_eq {i : Instr} {s t : State} (h : exec i s = .next t) : t.key = s.key := by
  obtain he | ⟨r, -, rfl⟩ := exec_cases h
  · exact he.key_eq
  · exact State.raise_key s r

/-- A tick keeps the keypad: fetch and decode write only `pc`, `FAULT` and the report. -/
theorem step_key_eq {s t : State} (h : step s = .next t) : t.key = s.key := by
  obtain ⟨-, hb⟩ | ⟨-, _, -, hb⟩ | ⟨-, i, -, hb⟩ := State.beginTick_cases s
  · rw [step_of_ended hb] at h; cases h; rfl
  · rw [step_of_ended hb] at h; cases h; rfl
  · rw [step_of_execute hb] at h; simpa using exec_key_eq h

/-- Settles O23: `exec` keeps the keypad, and so does every move of the driver beside the two named. -/
theorem keysChangeOnlyByKeyEvents : Obligations.KeysChangeOnlyByKeyEvents := by
  unfold Obligations.KeysChangeOnlyByKeyEvents
  refine ⟨fun _ _ _ => exec_key_eq, fun s t move h hne => ?_⟩
  cases move with
  | reset rom font seed => exact .inr ⟨rom, font, seed, rfl⟩
  | keyEvent k held => exact .inl ⟨k, held, rfl⟩
  | tick => exact absurd (step_key_eq h) hne
  | timerDec => cases h; exact absurd (State.timerDec_key s) hne
  | displayRead _ _ => cases h; exact absurd rfl hne

end Sys2Proof.Machine
end

section
/-! Family 0 of the decoder (30_encoding.md R85). -/

namespace Sys2Proof

/-- A word with `OP = 0` goes to the decoder of family 0. -/
theorem decodeWord_of_opField_zero {w : Word} (h : opField w = 0x0#4) : decodeWord w = decodeFamily0 w :=
  if_pos h

/-- Settles O5: the word `0nnn` has leading nibble 0 and operand field `nnn`, and family 0 tests the two exact words
before it answers `SYS` of that field. -/
theorem familyZeroDispatch : Obligations.FamilyZeroDispatch := by
  unfold Obligations.FamilyZeroDispatch
  intro nnn
  have hop : opField (wordNNN 0x0#4 nnn) = 0x0#4 := opField_wordNNN _ _
  rw [decodeWord_of_opField_zero hop, decodeFamily0, nnnField_wordNNN]

end Sys2Proof
end

section
/-! Return, jumps and compare skips (41_control_flow.md). -/

namespace Sys2Proof

@[simp] theorem toNat_zext16 (nnn : Addr12) : (zext16 nnn).toNat = nnn.toNat :=
  BitVec.toNat_setWidth_of_le (by decide)

/-- A 12-bit address plus a byte is at most 0x10FE, so the 16-bit sum does not wrap. -/
theorem toNat_zext16_add_byte (nnn : Addr12) (b : Byte) :
    (zext16 nnn + b.setWidth 16).toNat = nnn.toNat + b.toNat := by
  have hb : (b.setWidth 16).toNat = b.toNat := BitVec.toNat_setWidth_of_le (by decide)
  rw [BitVec.toNat_add, toNat_zext16, hb]
  omega

end Sys2Proof

namespace Sys2Proof.Machine

open Sys2Proof

/-- `RET` on a stack with a last entry pops it into `pc` (R131). -/
theorem exec_ret_of_append {s : State} {rest : List Word} {v : Word} (h : s.stack = rest ++ [v]) :
    exec .ret s = .next { s with stack := rest, pc := v } := by
  simp only [exec, execRet, State.pop_of_append h, State.jump]

/-- `RET` on an empty stack does nothing (R131). -/
theorem exec_ret_of_empty {s : State} (h : s.stack = []) : exec .ret s = .next s := by
  simp only [exec, execRet, (State.pop_eq_none_iff s).mpr h]

/-- The `pc` of a skip, read as a number, for any proposition `p` that the skip's Boolean condition decides (R135). -/
theorem State.toNat_pc_skipIf (s : State) {c : Bool} {p : Prop} [Decidable p] (h : c = true ↔ p) :
    (s.skipIf c).pc.toNat = if p then (s.pc.toNat + 2) % 65536 else s.pc.toNat := by
  rw [State.skipIf_pc]
  by_cases hp : p
  · rw [if_pos (h.mpr hp), if_pos hp]; exact BitVec.toNat_add s.pc 2#16
  · rw [if_neg (mt h.mp hp), if_neg hp]

/-- Settles O32: a last entry is popped into `pc`, and an empty stack has none to pop. -/
theorem retPopsIntoPc : Obligations.RetPopsIntoPc := by
  unfold Obligations.RetPopsIntoPc
  exact ⟨fun s rest v h => ⟨_, exec_ret_of_append h, rfl, rfl, changesOnly_stackAndPc s rest v⟩,
    fun _ h => exec_ret_of_empty h⟩

/-- Settles O33: `JP` is a jump to the zero-extended address. -/
theorem jpSetsPc : Obligations.JpSetsPc := by
  unfold Obligations.JpSetsPc
  exact fun nnn s => ⟨_, rfl, toNat_zext16 nnn, changesOnly_jump s _⟩

/-- Settles O35: `JP V0` is a jump to a sum that cannot wrap. -/
theorem jpV0AddsV0 : Obligations.JpV0AddsV0 := by
  unfold Obligations.JpV0AddsV0
  exact fun nnn s => ⟨_, rfl, toNat_zext16_add_byte nnn _, changesOnly_jump s _⟩

/-- Settles O36: each of the four is `State.skipIf` on the Boolean form of its condition. -/
theorem compareSkipsAddTwo : Obligations.CompareSkipsAddTwo := by
  unfold Obligations.CompareSkipsAddTwo
  intro x y nn s
  refine ⟨?seImm, ?sneImm, ?seReg, ?sneReg⟩
  case seImm => exact ⟨_, rfl, changesOnly_skipIf s _, s.toNat_pc_skipIf beq_iff_eq⟩
  case sneImm => exact ⟨_, rfl, changesOnly_skipIf s _, s.toNat_pc_skipIf bne_iff_ne⟩
  case seReg => exact ⟨_, rfl, changesOnly_skipIf s _, s.toNat_pc_skipIf beq_iff_eq⟩
  case sneReg => exact ⟨_, rfl, changesOnly_skipIf s _, s.toNat_pc_skipIf bne_iff_ne⟩

end Sys2Proof.Machine
end

section
/-! Register arithmetic, logic and shifts (42_alu.md). -/

namespace Sys2Proof.Machine

open Sys2Proof

/-! ### Flags and results as numbers -/

theorem toNat_flagByte (c : Bool) : (flagByte c).toNat = c.toNat := by cases c <;> rfl

theorem toNat_flagByte_decide (p : Prop) [Decidable p] : (flagByte (decide p)).toNat = if p then 1 else 0 := by
  by_cases hp : p <;> simp [hp, flagByte]

/-- A carry is a sum above 255 (R146). -/
theorem toNat_flagByte_carryFlag (a b : Byte) :
    (flagByte (carryFlag a b)).toNat = if a.toNat + b.toNat > 255 then 1 else 0 := toNat_flagByte_decide _

/-- No borrow is a minuend at least the subtrahend (R146). -/
theorem toNat_flagByte_noBorrowFlag (a b : Byte) :
    (flagByte (noBorrowFlag a b)).toNat = if a.toNat ≥ b.toNat then 1 else 0 := toNat_flagByte_decide _

/-- The bit a right shift loses is the remainder of the halving (R158). -/
theorem toNat_flagByte_lowBitFlag (a : Byte) : (flagByte (lowBitFlag a)).toNat = a.toNat % 2 := by
  rw [toNat_flagByte, lowBitFlag, BitVec.getLsbD, Nat.toNat_testBit, pow_zero, Nat.div_one]

/-- The bit a left shift loses is the carry of the doubling (R160). -/
theorem toNat_flagByte_highBitFlag (a : Byte) : (flagByte (highBitFlag a)).toNat = a.toNat / 128 := by
  rw [toNat_flagByte, highBitFlag, BitVec.getLsbD, Nat.toNat_testBit]
  omega

theorem toNat_byte_sub (a b : Byte) : (a - b).toNat = (a.toNat + 256 - b.toNat) % 256 := by
  rw [BitVec.toNat_sub]; omega

theorem toNat_byte_ushiftRight_one (a : Byte) : (a >>> 1).toNat = a.toNat / 2 := by
  rw [BitVec.toNat_ushiftRight, Nat.shiftRight_one]

theorem toNat_byte_shiftLeft_one (a : Byte) : (a <<< 1).toNat = 2 * a.toNat % 256 := by
  rw [BitVec.toNat_shiftLeft, Nat.shiftLeft_eq, pow_one, mul_comm]

/-- What a result and its flag leave, as numbers: the result where the destination is not `VF`, the flag in `VF`
always (R22), and every other part. -/
theorem State.setResultAndFlag_spec (s : State) (x : Reg) {b : Byte} {c : Bool} {result flag : Nat}
    (hb : b.toNat = result) (hc : (flagByte c).toNat = flag) :
    (x ≠ VF → ((s.setResultAndFlag x b c).getV x).toNat = result) ∧
      ((s.setResultAndFlag x b c).getV VF).toNat = flag ∧
      ChangesOnly (fun p => p = .reg x ∨ p = .reg VF) s (s.setResultAndFlag x b c) := by
  refine ⟨fun hx => ?_, ?_, changesOnly_setResultAndFlag s x b c⟩
  · rw [State.getV_setResultAndFlag_result s b c hx, hb]
  · rw [State.getV_setResultAndFlag_VF, hc]

/-! ### The obligations -/

/-- Settles O41: one register write, of a sum of bytes. -/
theorem addImmediateWraps : Obligations.AddImmediateWraps := by
  unfold Obligations.AddImmediateWraps
  intro x nn s
  refine ⟨_, rfl, ?_, changesOnly_setV s x _⟩
  rw [State.getV_setV_same, BitVec.toNat_add]

/-- Settles O42: each of the four is one register write. -/
theorem copyAndLogicWriteVxOnly : Obligations.CopyAndLogicWriteVxOnly := by
  unfold Obligations.CopyAndLogicWriteVxOnly
  intro x y s
  have hwrite (b : Byte) : (s.setV x b).getV x = b ∧ ChangesOnly (fun p => p = .reg x) s (s.setV x b) :=
    ⟨s.getV_setV_same x b, changesOnly_setV s x b⟩
  exact ⟨⟨_, rfl, hwrite (s.getV y)⟩, ⟨_, rfl, hwrite (s.getV x ||| s.getV y)⟩,
    ⟨_, rfl, hwrite (s.getV x &&& s.getV y)⟩, ⟨_, rfl, hwrite (s.getV x ^^^ s.getV y)⟩⟩

/-- Settles O43: a result and a flag, the sum of bytes and its carry. -/
theorem addRegistersCarry : Obligations.AddRegistersCarry := by
  unfold Obligations.AddRegistersCarry
  exact fun x _ s => ⟨_, rfl, s.setResultAndFlag_spec x (BitVec.toNat_add _ _) (toNat_flagByte_carryFlag _ _)⟩

/-- Settles O44: a result and a flag, the difference of bytes and its inverted borrow, the operands exchanged in
`SUBN`. -/
theorem subtractsInvertBorrow : Obligations.SubtractsInvertBorrow := by
  unfold Obligations.SubtractsInvertBorrow
  intro x y s
  have hspec (a b : Byte) := s.setResultAndFlag_spec x (toNat_byte_sub a b) (toNat_flagByte_noBorrowFlag a b)
  exact ⟨⟨_, rfl, hspec (s.getV x) (s.getV y)⟩, ⟨_, rfl, hspec (s.getV y) (s.getV x)⟩⟩

/-- Settles O45: a result and a flag, both of `V[x]` alone, so that the state answered does not depend on `y`. -/
theorem shiftsIgnoreVy : Obligations.ShiftsIgnoreVy := by
  unfold Obligations.ShiftsIgnoreVy
  intro x y s
  refine ⟨?shr, ?shl⟩
  case shr =>
    obtain ⟨hresult, hflag, hframe⟩ :=
      s.setResultAndFlag_spec x (toNat_byte_ushiftRight_one (s.getV x)) (toNat_flagByte_lowBitFlag (s.getV x))
    exact ⟨_, rfl, hresult, hflag, hframe, fun _ => rfl⟩
  case shl =>
    obtain ⟨hresult, hflag, hframe⟩ :=
      s.setResultAndFlag_spec x (toNat_byte_shiftLeft_one (s.getV x)) (toNat_flagByte_highBitFlag (s.getV x))
    exact ⟨_, rfl, hresult, hflag, hframe, fun _ => rfl⟩

end Sys2Proof.Machine
end

section
/-! Index and timer moves (43_index_memory_timers.md). -/

namespace Sys2Proof.Machine

open Sys2Proof

/-- A byte added to a word: only the 16-bit sum wraps, since the byte is zero-extended (R181). -/
theorem toNat_word_add_byte (w : Word) (b : Byte) :
    (w + b.setWidth 16).toNat = (w.toNat + b.toNat) % 65536 := by
  rw [BitVec.toNat_add, BitVec.toNat_setWidth_of_le (by decide)]

/-- Settles O47: one write of `I`, of a word and a zero-extended byte. -/
theorem addIndexWraps : Obligations.AddIndexWraps := by
  unfold Obligations.AddIndexWraps
  exact fun x s => ⟨_, rfl, toNat_word_add_byte s.i (s.getV x), changesOnly_i s _⟩

/-- Settles O54: each of the three is one write, of the register or of the timer. -/
theorem timerInstructionsMoveOneByte : Obligations.TimerInstructionsMoveOneByte := by
  unfold Obligations.TimerInstructionsMoveOneByte
  intro x s
  refine ⟨?ldVxDt, ?ldDtVx, ?ldStVx⟩
  case ldVxDt => exact ⟨_, rfl, s.getV_setV_same x s.dt, changesOnly_setV s x s.dt⟩
  case ldDtVx => exact ⟨_, rfl, rfl, changesOnly_dt s (s.getV x)⟩
  case ldStVx => exact ⟨_, rfl, rfl, changesOnly_st s (s.getV x)⟩

end Sys2Proof.Machine
end

section
/-! Display and keypad (44_display_input.md): the key skips, the clear, and what writes the display. -/

namespace Sys2Proof.Machine

open Sys2Proof

/-- A new display changes pixels and nothing else. -/
theorem changesOnly_disp (s : State) (d : Display) :
    ChangesOnly (fun p => ∃ x y, p = .pixel x y) s { s with disp := d } := by
  intro p hp
  cases p with
  | pixel x y => exact absurd ⟨x, y, rfl⟩ hp
  | _ => rfl

/-- Settles O56: `CLS` puts the cleared display in the place of the old one. -/
theorem clsClearsEveryPixel : Obligations.ClsClearsEveryPixel := by
  unfold Obligations.ClsClearsEveryPixel
  exact fun s => ⟨_, rfl, Display.pixel_clear, changesOnly_disp s Display.clear⟩

/-- Settles O37: both are `State.skipIf`, on the key of the low nibble being held, and on its negation. -/
theorem keySkipsTestLowNibble : Obligations.KeySkipsTestLowNibble := by
  unfold Obligations.KeySkipsTestLowNibble
  intro x s
  refine ⟨?skp, ?sknp⟩
  case skp => exact ⟨_, rfl, changesOnly_skipIf s _, s.toNat_pc_skipIf Iff.rfl⟩
  case sknp => exact ⟨_, rfl, changesOnly_skipIf s _, s.toNat_pc_skipIf (iff_of_eq (Bool.not_eq_true' _))⟩

/-- No effect of an instruction but `CLS` and `DRW` reaches the display. -/
theorem Effect.disp_eq {i : Instr} {s t : State} (h : Effect s t i) (hcls : i ≠ .cls)
    (hdrw : ∀ x y n, i ≠ .drw x y n) : t.disp = s.disp := by
  cases i with
  | cls => exact absurd rfl hcls
  | drw x y n => exact absurd rfl (hdrw x y n)
  | ret => obtain ⟨-, rfl⟩ | ⟨_, _, -, rfl⟩ := h <;> rfl
  | ldVxK _ => obtain ⟨-, rfl⟩ | ⟨_, -, rfl⟩ := h <;> rfl
  | call _ | ldBVx _ | storeRegs _ | loadRegs _ => obtain ⟨-, rfl⟩ := h; rfl
  | _ => cases h; rfl

/-- An instruction that leaves another display is `CLS` or `DRW`; a fault leaves the display as it was. -/
theorem exec_disp_ne {i : Instr} {s t : State} (h : exec i s = .next t) (hne : t.disp ≠ s.disp) :
    i = .cls ∨ ∃ x y n, i = .drw x y n := by
  obtain he | ⟨r, -, rfl⟩ := exec_cases h
  · by_contra hi
    push Not at hi
    obtain ⟨hcls, hdrw⟩ := hi
    exact hne (he.disp_eq hcls hdrw)
  · exact absurd (State.raise_disp s r) hne

/-- A tick that leaves another display has `CLS` or `DRW` to execute: fetch and decode do not write the display. -/
theorem step_disp_ne {s t : State} (h : step s = .next t) (hne : t.disp ≠ s.disp) :
    ∃ u, s.beginTick = .execute .cls u ∨ ∃ x y n, s.beginTick = .execute (.drw x y n) u := by
  obtain ⟨-, hb⟩ | ⟨-, _, -, hb⟩ | ⟨-, i, -, hb⟩ := State.beginTick_cases s
  · rw [step_of_ended hb] at h; cases h; exact absurd rfl hne
  · rw [step_of_ended hb] at h; cases h; exact absurd rfl hne
  · rw [step_of_execute hb] at h
    obtain rfl | ⟨x, y, n, rfl⟩ := exec_disp_ne h hne
    · exact ⟨_, .inl hb⟩
    · exact ⟨_, .inr ⟨x, y, n, hb⟩⟩

/-- Settles O24: of the driver's moves only a tick and a reset can leave another display. -/
theorem displayChangesOnlyByClsAndDrw : Obligations.DisplayChangesOnlyByClsAndDrw := by
  unfold Obligations.DisplayChangesOnlyByClsAndDrw
  intro s t move h hne
  cases move with
  | reset rom font seed => exact .inr ⟨rom, font, seed, rfl⟩
  | tick => exact .inl ⟨rfl, step_disp_ne h hne⟩
  | keyEvent k held => cases h; exact absurd (State.keyEvent_disp s k held) hne
  | timerDec => cases h; exact absurd (State.timerDec_disp s) hne
  | displayRead _ _ => cases h; exact absurd rfl hne

end Sys2Proof.Machine
end

section
/-! The decoder and the encoder undo each other, and the opcode table agrees with the decoder (30_encoding.md). -/

namespace Sys2Proof

/-! ### Words with a known leading nibble and selector -/

theorem wordNNN_eq_of_opField {w : Word} {op : Nibble} (h : opField w = op) : wordNNN op (nnnField w) = w :=
  h ▸ wordNNN_fields w

theorem wordXNN_eq_of_opField {w : Word} {op : Nibble} (h : opField w = op) :
    wordXNN op (xField w) (nnField w) = w :=
  h ▸ wordXNN_fields w

theorem wordXNN_eq_of_loByte {w : Word} {op : Nibble} {lo : Byte} (h : opField w = op) (hlo : loByte w = lo) :
    wordXNN op (xField w) lo = w :=
  hlo ▸ wordXNN_eq_of_opField h

theorem wordXYN_eq_of_opField {w : Word} {op : Nibble} (h : opField w = op) :
    wordXYN op (xField w) (yField w) (nField w) = w :=
  h ▸ wordXYN_fields w

theorem wordXYN_eq_of_nField {w : Word} {op n : Nibble} (h : opField w = op) (hn : nField w = n) :
    wordXYN op (xField w) (yField w) n = w :=
  hn ▸ wordXYN_eq_of_opField h

/-- The words of one family are as many as their fields. -/
theorem wordNNN_inj {op : Nibble} {nnn k : Addr12} : wordNNN op nnn = wordNNN op k ↔ nnn = k :=
  ⟨fun e => by simpa using congrArg nnnField e, fun e => by rw [e]⟩

/-- `0nnn` is the word of `CLS` for the one field that `CLS` has (R85). -/
theorem wordNNN_eq_cls {nnn : Addr12} : wordNNN 0x0#4 nnn = 0x00E0#16 ↔ nnn = 0x0E0#12 :=
  wordNNN_inj (op := 0x0#4) (k := 0x0E0#12)

/-- `0nnn` is the word of `RET` for the one field that `RET` has (R85). -/
theorem wordNNN_eq_ret {nnn : Addr12} : wordNNN 0x0#4 nnn = 0x00EE#16 ↔ nnn = 0x0EE#12 :=
  wordNNN_inj (op := 0x0#4) (k := 0x0EE#12)

/-- The leading nibble is one of sixteen, the families of the opcode map. -/
theorem nibble_cases : ∀ n : Nibble, n = 0x0#4 ∨ n = 0x1#4 ∨ n = 0x2#4 ∨ n = 0x3#4 ∨ n = 0x4#4 ∨ n = 0x5#4 ∨
    n = 0x6#4 ∨ n = 0x7#4 ∨ n = 0x8#4 ∨ n = 0x9#4 ∨ n = 0xA#4 ∨ n = 0xB#4 ∨ n = 0xC#4 ∨ n = 0xD#4 ∨ n = 0xE#4 ∨
    n = 0xF#4 := by
  decide

/-! ### Decoding an encoded instruction -/

/-- The decoder of family 0 answers `SYS` on the word of every field but the two of `CLS` and `RET` (R85). -/
theorem decodeFamily0_wordNNN {nnn : Addr12} (h : sysFieldOk nnn = true) :
    decodeFamily0 (wordNNN 0x0#4 nnn) = .instr (.sys nnn) := by
  obtain ⟨hcls, hret⟩ : nnn ≠ 0x0E0#12 ∧ nnn ≠ 0x0EE#12 := by simpa [sysFieldOk] using h
  rw [decodeFamily0, if_neg (mt wordNNN_eq_cls.mp hcls), if_neg (mt wordNNN_eq_ret.mp hret), nnnField_wordNNN]

/-- Settles O1: the fields of the encoded word are the operands and the selectors that the decoder asks for. -/
theorem decodeUndoesEncode : Obligations.DecodeUndoesEncode := by
  unfold Obligations.DecodeUndoesEncode
  intro i hwf
  cases i with
  | cls | ret => rfl
  | sys nnn => rw [encode, decodeWord_of_opField_zero (opField_wordNNN _ _), decodeFamily0_wordNNN hwf]
  | _ => simp [encode, decodeWord, decodeFamily8, decodeFamilyE, decodeFamilyF]

/-! ### Encoding a decoded word -/

/-- An instruction in this answer is well-formed and has the word `w`. -/
def Decoded.IsWord (w : Word) (d : Decoded) : Prop := ∀ i, d = .instr i → i.wellFormed = true ∧ encode i = w

theorem Decoded.IsWord.instr {w : Word} {i : Instr} (hwf : i.wellFormed = true) (he : encode i = w) :
    Decoded.IsWord w (.instr i) := by
  rintro _ ⟨⟩; exact ⟨hwf, he⟩

theorem Decoded.IsWord.unknownOpcode (w u : Word) : Decoded.IsWord w (.unknownOpcode u) :=
  fun _ h => Decoded.noConfusion h

theorem Decoded.IsWord.ite {w : Word} {c : Prop} [Decidable c] {a b : Decoded}
    (ha : c → Decoded.IsWord w a) (hb : ¬ c → Decoded.IsWord w b) : Decoded.IsWord w (if c then a else b) := by
  split
  · exact ha ‹_›
  · exact hb ‹_›

theorem decodeFamily0_isWord {w : Word} (hop : opField w = 0x0#4) : (decodeFamily0 w).IsWord w := by
  have hw : wordNNN 0x0#4 (nnnField w) = w := wordNNN_eq_of_opField hop
  refine .ite (fun h => .instr rfl h.symm) fun hcls => .ite (fun h => .instr rfl h.symm) fun hret => .instr ?_ hw
  rw [← hw, wordNNN_eq_cls] at hcls
  rw [← hw, wordNNN_eq_ret] at hret
  simp [Instr.wellFormed, sysFieldOk, hcls, hret]

theorem decodeFamily8_isWord {w : Word} (hop : opField w = 0x8#4) : (decodeFamily8 w).IsWord w := by
  unfold decodeFamily8
  iterate 9 refine .ite (fun h => .instr rfl (wordXYN_eq_of_nField hop h)) fun _ => ?_
  exact .unknownOpcode w w

theorem decodeFamilyE_isWord {w : Word} (hop : opField w = 0xE#4) : (decodeFamilyE w).IsWord w := by
  unfold decodeFamilyE
  iterate 2 refine .ite (fun h => .instr rfl (wordXNN_eq_of_loByte hop h)) fun _ => ?_
  exact .unknownOpcode w w

theorem decodeFamilyF_isWord {w : Word} (hop : opField w = 0xF#4) : (decodeFamilyF w).IsWord w := by
  unfold decodeFamilyF
  iterate 9 refine .ite (fun h => .instr rfl (wordXNN_eq_of_loByte hop h)) fun _ => ?_
  exact .unknownOpcode w w

/-- The families 5 and 9: one instruction, whose trailing nibble must be 0 (R90). -/
theorem isWord_of_nField_zero {w : Word} {i : Instr} (hwf : i.wellFormed = true)
    (he : nField w = 0x0#4 → encode i = w) :
    (if nField w = 0x0#4 then Decoded.instr i else .unknownOpcode w).IsWord w :=
  .ite (fun h => .instr hwf (he h)) fun _ => .unknownOpcode w w

/-- Every answer of the decoder is an instruction of the word it was given, family by family. -/
theorem decodeWord_isWord (w : Word) : (decodeWord w).IsWord w := by
  unfold decodeWord
  refine .ite decodeFamily0_isWord fun h0 => ?_
  refine .ite (fun h => .instr rfl (wordNNN_eq_of_opField h)) fun h1 => ?_
  refine .ite (fun h => .instr rfl (wordNNN_eq_of_opField h)) fun h2 => ?_
  refine .ite (fun h => .instr rfl (wordXNN_eq_of_opField h)) fun h3 => ?_
  refine .ite (fun h => .instr rfl (wordXNN_eq_of_opField h)) fun h4 => ?_
  refine .ite (fun h => isWord_of_nField_zero rfl (wordXYN_eq_of_nField h)) fun h5 => ?_
  refine .ite (fun h => .instr rfl (wordXNN_eq_of_opField h)) fun h6 => ?_
  refine .ite (fun h => .instr rfl (wordXNN_eq_of_opField h)) fun h7 => ?_
  refine .ite decodeFamily8_isWord fun h8 => ?_
  refine .ite (fun h => isWord_of_nField_zero rfl (wordXYN_eq_of_nField h)) fun h9 => ?_
  refine .ite (fun h => .instr rfl (wordNNN_eq_of_opField h)) fun hA => ?_
  refine .ite (fun h => .instr rfl (wordNNN_eq_of_opField h)) fun hB => ?_
  refine .ite (fun h => .instr rfl (wordXNN_eq_of_opField h)) fun hC => ?_
  refine .ite (fun h => .instr rfl (wordXYN_eq_of_opField h)) fun hD => ?_
  refine .ite decodeFamilyE_isWord fun hE => decodeFamilyF_isWord ?_
  simpa only [h0, h1, h2, h3, h4, h5, h6, h7, h8, h9, hA, hB, hC, hD, hE, false_or] using nibble_cases (opField w)

/-- Settles O2: each branch of the decoder answers an instruction whose format puts the word together again. -/
theorem encodeUndoesDecode : Obligations.EncodeUndoesDecode := by
  unfold Obligations.EncodeUndoesDecode
  exact decodeWord_isWord

/-! ### The opcode table -/

/-- The search of a list of rows, as a chain of conditions. -/
def decodeByRows (w : Word) : List OpcodeRow → Decoded
  | [] => .unknownOpcode w
  | row :: rest => if w &&& row.mask = row.pattern then .instr (row.operands w) else decodeByRows w rest

theorem decodeByTable_eq_decodeByRows (w : Word) : decodeByTable w = decodeByRows w opcodeTable := by
  unfold decodeByTable
  induction opcodeTable with
  | nil => rfl
  | cons row rest ih =>
    by_cases h : w &&& row.mask = row.pattern
    · simp [decodeByRows, h]
    · simpa [decodeByRows, h] using ih

/-! What each mask of R88 tests: the leading nibble, and the bits that select within its family. The pattern's own
fields are written as bit ranges, which `simp` evaluates on a literal. -/

/-- A field that the mask covers is left as it is. -/
theorem extractLsb'_and_of_ones {w m : Word} {start len : Nat} (h : m.extractLsb' start len = BitVec.allOnes len) :
    (w &&& m).extractLsb' start len = w.extractLsb' start len := by
  rw [BitVec.extractLsb'_and, h, BitVec.and_allOnes]

/-- A field that the mask leaves out is cleared. -/
theorem extractLsb'_and_of_zero {w m : Word} {start len : Nat} (h : m.extractLsb' start len = 0#len) :
    (w &&& m).extractLsb' start len = 0#len := by
  rw [BitVec.extractLsb'_and, h, BitVec.and_zero]

theorem and_mask_FFFF_eq_iff (w p : Word) : w &&& 0xFFFF#16 = p ↔ opField w = p.extractLsb' 12 4 ∧ w = p := by
  rw [show w &&& 0xFFFF#16 = w from BitVec.and_allOnes]
  exact ⟨fun h => ⟨h ▸ rfl, h⟩, And.right⟩

theorem and_mask_F000_eq_iff (w p : Word) :
    w &&& 0xF000#16 = p ↔ opField w = p.extractLsb' 12 4 ∧ 0#12 = p.extractLsb' 0 12 := by
  have hop : opField (w &&& 0xF000#16) = opField w := extractLsb'_and_of_ones rfl
  have hnnn : nnnField (w &&& 0xF000#16) = 0#12 := extractLsb'_and_of_zero rfl
  rw [← hop, ← hnnn]
  refine ⟨fun h => h ▸ ⟨rfl, rfl⟩, fun ⟨h, hn⟩ => ?_⟩
  rw [← wordNNN_fields (w &&& 0xF000#16), h, hn]
  exact wordNNN_fields p

theorem and_mask_F00F_eq_iff (w p : Word) : w &&& 0xF00F#16 = p ↔
    opField w = p.extractLsb' 12 4 ∧ 0#4 = p.extractLsb' 8 4 ∧ 0#4 = p.extractLsb' 4 4 ∧
      nField w = p.extractLsb' 0 4 := by
  have hop : opField (w &&& 0xF00F#16) = opField w := extractLsb'_and_of_ones rfl
  have hx : xField (w &&& 0xF00F#16) = 0#4 := extractLsb'_and_of_zero rfl
  have hy : yField (w &&& 0xF00F#16) = 0#4 := extractLsb'_and_of_zero rfl
  have hn : nField (w &&& 0xF00F#16) = nField w := extractLsb'_and_of_ones rfl
  rw [← hop, ← hn]
  refine ⟨fun h => h ▸ ⟨rfl, hx.symm, hy.symm, rfl⟩, fun ⟨ho, hpx, hpy, hpn⟩ => ?_⟩
  rw [← wordXYN_fields (w &&& 0xF00F#16), ho, hx, hpx, hy, hpy, hpn]
  exact wordXYN_fields p

theorem and_mask_F0FF_eq_iff (w p : Word) : w &&& 0xF0FF#16 = p ↔
    opField w = p.extractLsb' 12 4 ∧ 0#4 = p.extractLsb' 8 4 ∧ loByte w = p.extractLsb' 0 8 := by
  have hop : opField (w &&& 0xF0FF#16) = opField w := extractLsb'_and_of_ones rfl
  have hx : xField (w &&& 0xF0FF#16) = 0#4 := extractLsb'_and_of_zero rfl
  have hnn : nnField (w &&& 0xF0FF#16) = loByte w := extractLsb'_and_of_ones rfl
  rw [← hop, ← hnn]
  refine ⟨fun h => h ▸ ⟨rfl, hx.symm, rfl⟩, fun ⟨ho, hpx, hpn⟩ => ?_⟩
  rw [← wordXNN_fields (w &&& 0xF0FF#16), ho, hx, hpx, hpn]
  exact wordXNN_fields p

/-- Settles O3: each mask tests the leading nibble and the selector of its family, so that on the words of one family
the search goes through the conditions of the decoder. -/
theorem decoderFollowsOpcodeTable : Obligations.DecoderFollowsOpcodeTable := by
  unfold Obligations.DecoderFollowsOpcodeTable
  intro w
  rw [decodeByTable_eq_decodeByRows]
  simp only [opcodeTable, opcodeRows1, opcodeRows2, opcodeRows3, List.cons_append, List.nil_append, decodeByRows,
    and_mask_FFFF_eq_iff, and_mask_F000_eq_iff, and_mask_F00F_eq_iff, and_mask_F0FF_eq_iff]
  obtain h | h | h | h | h | h | h | h | h | h | h | h | h | h | h | h := nibble_cases (opField w) <;>
    simp [h, decodeWord, decodeFamily0, decodeFamily8, decodeFamilyE, decodeFamilyF]

/-! ### The unknown opcodes -/

theorem Decoded.ite_eq_unknownOpcode_iff {c : Prop} [Decidable c] {i : Instr} {d : Decoded} {w : Word} :
    (if c then .instr i else d) = Decoded.unknownOpcode w ↔ ¬ c ∧ d = .unknownOpcode w := by
  split <;> simp [*]

/-- Family 8 leaves seven sub-codes unused, those that are not among its nine. -/
theorem decodeFamily8_eq_unknownOpcode_iff (w : Word) : decodeFamily8 w = .unknownOpcode w ↔
    nField w ∈ [0x8#4, 0x9#4, 0xA#4, 0xB#4, 0xC#4, 0xD#4, 0xF#4] := by
  have hsub : ∀ n : Nibble, n ∉ [0x0#4, 0x1#4, 0x2#4, 0x3#4, 0x4#4, 0x5#4, 0x6#4, 0x7#4, 0xE#4] ↔
      n ∈ [0x8#4, 0x9#4, 0xA#4, 0xB#4, 0xC#4, 0xD#4, 0xF#4] := by decide
  rw [← hsub]
  simp [decodeFamily8, Decoded.ite_eq_unknownOpcode_iff]

theorem decodeFamilyE_eq_unknownOpcode_iff (w : Word) :
    decodeFamilyE w = .unknownOpcode w ↔ loByte w ∉ [0x9E#8, 0xA1#8] := by
  simp [decodeFamilyE, Decoded.ite_eq_unknownOpcode_iff]

theorem decodeFamilyF_eq_unknownOpcode_iff (w : Word) : decodeFamilyF w = .unknownOpcode w ↔
    loByte w ∉ [0x07#8, 0x0A#8, 0x15#8, 0x18#8, 0x1E#8, 0x29#8, 0x33#8, 0x55#8, 0x65#8] := by
  simp [decodeFamilyF, Decoded.ite_eq_unknownOpcode_iff]

/-- Settles O4: of the sixteen families five can fail, each on the selectors it does not assign. -/
theorem unknownOpcodesExactly : Obligations.UnknownOpcodesExactly := by
  unfold Obligations.UnknownOpcodesExactly
  intro w
  rw [← decodeFamily8_eq_unknownOpcode_iff, ← decodeFamilyE_eq_unknownOpcode_iff,
    ← decodeFamilyF_eq_unknownOpcode_iff]
  obtain h | h | h | h | h | h | h | h | h | h | h | h | h | h | h | h := nibble_cases (opField w) <;>
    simp [h, decodeWord, decodeFamily0, Decoded.ite_eq_unknownOpcode_iff]

/-- Settles O6: the decoder, run on each of the fourteen words. -/
theorem specWordsDecode : Obligations.SpecWordsDecode := by
  unfold Obligations.SpecWordsDecode
  decide

end Sys2Proof
end

section
/-! What a tick answers (40_cycle.md R110), read off its three cases. -/

namespace Sys2Proof.Machine

open Sys2Proof

/-! ### Forwards: which of the three a state takes -/

theorem step_of_outOfRange {s : State} (hpc : 0xFFF ≤ s.pc.toNat) :
    step s = .next (({ s with report := .ok } : State).raise
      { code := .memoryRange, word := 0x0000#16, addr := max s.pc.toNat Config.memSize }) := by
  obtain ⟨-, hb⟩ | ⟨h, -⟩ | ⟨h, -⟩ := State.beginTick_cases s
  · exact step_of_ended hb
  · omega
  · omega

theorem step_of_unknownOpcode {s : State} {w : Word} (hpc : s.pc.toNat ≤ 0xFFE)
    (hw : decodeWord (s.mem.readWord s.pc.toNat) = .unknownOpcode w) :
    step s = .next (({ s with pc := s.pc + 2#16, report := .ok } : State).raise
      { code := .unknownOpcode, word := w, addr := s.pc.toNat }) := by
  obtain ⟨h, -⟩ | ⟨-, w', hw', hb⟩ | ⟨-, i, hi, -⟩ := State.beginTick_cases s
  · omega
  · cases hw.symm.trans hw'; exact step_of_ended hb
  · cases hw.symm.trans hi

theorem step_of_instr {s : State} {i : Instr} (hpc : s.pc.toNat ≤ 0xFFE)
    (hi : decodeWord (s.mem.readWord s.pc.toNat) = .instr i) :
    step s = exec i { s with pc := s.pc + 2#16, report := .ok } := by
  obtain ⟨h, -⟩ | ⟨-, w, hw, -⟩ | ⟨-, i', hi', hb⟩ := State.beginTick_cases s
  · omega
  · cases hw.symm.trans hi
  · cases hi.symm.trans hi'; exact step_of_execute hb

/-! ### Backwards: what a tick that answered a state did -/

theorem step_cases {s t : State} (h : step s = .next t) :
    (0xFFF ≤ s.pc.toNat ∧ t = ({ s with report := .ok } : State).raise
      { code := .memoryRange, word := 0x0000#16, addr := max s.pc.toNat Config.memSize }) ∨
    (s.pc.toNat ≤ 0xFFE ∧ ∃ w, w = s.mem.readWord s.pc.toNat ∧ decodeWord w = .unknownOpcode w ∧
      t = ({ s with pc := s.pc + 2#16, report := .ok } : State).raise
        { code := .unknownOpcode, word := w, addr := s.pc.toNat }) ∨
    (s.pc.toNat ≤ 0xFFE ∧ ∃ i, decodeWord (s.mem.readWord s.pc.toNat) = .instr i ∧
      exec i { s with pc := s.pc + 2#16, report := .ok } = .next t) := by
  obtain ⟨hpc, hb⟩ | ⟨hpc, w, hw, hb⟩ | ⟨hpc, i, hi, hb⟩ := State.beginTick_cases s
  · rw [step_of_ended hb] at h; cases h
    exact .inl ⟨hpc, rfl⟩
  · rw [step_of_ended hb] at h; cases h
    obtain rfl := decodeWord_unknownOpcode hw
    exact .inr (.inl ⟨hpc, _, rfl, hw, rfl⟩)
  · rw [step_of_execute hb] at h
    exact .inr (.inr ⟨hpc, i, hi, h⟩)

/-- No effect of an instruction reaches `STACK_DEPTH`, `FAULT` or the report. -/
theorem Effect.unwritten {i : Instr} {s t : State} (h : Effect s t i) :
    t.stackDepth = s.stackDepth ∧ t.fault = s.fault ∧ t.report = s.report := by
  cases i with
  | ret => obtain ⟨-, rfl⟩ | ⟨_, _, -, rfl⟩ := h <;> exact ⟨rfl, rfl, rfl⟩
  | ldVxK _ => obtain ⟨-, rfl⟩ | ⟨_, -, rfl⟩ := h <;> exact ⟨rfl, rfl, rfl⟩
  | call _ | ldBVx _ | storeRegs _ | loadRegs _ | drw _ _ _ => obtain ⟨-, rfl⟩ := h; exact ⟨rfl, rfl, rfl⟩
  | _ => cases h; exact ⟨rfl, rfl, rfl⟩

/-- The record of a fault in the execute phase holds the instruction's own word (60_exceptions.md R221). -/
theorem Faults.word_eq {i : Instr} {s : State} {r : FaultRecord} (h : Faults s r i) : r.word = encode i := by
  cases i with
  | call _ | ldBVx _ | storeRegs _ | loadRegs _ => obtain ⟨-, rfl⟩ := h; rfl
  | drw _ _ _ => obtain ⟨-, -, rfl⟩ := h; rfl
  | _ => exact h.elim

/-- A tick that reports a fault took it and did nothing else: before `pc` moved, with word 0, or after it moved past
the fetched word, with that word (R227). -/
theorem step_fault_cases {s t : State} {r : FaultRecord} (h : step s = .next t) (hr : t.report = .fault r) :
    (0xFFF ≤ s.pc.toNat ∧ r.word = 0x0000#16 ∧ t = ({ s with report := .ok } : State).raise r) ∨
    (s.pc.toNat ≤ 0xFFE ∧ r.word = s.mem.readWord s.pc.toNat ∧
      t = ({ s with pc := s.pc + 2#16, report := .ok } : State).raise r) := by
  obtain ⟨hpc, rfl⟩ | ⟨hpc, w, hw, -, rfl⟩ | ⟨hpc, i, hi, he⟩ := step_cases h
  · cases hr; exact .inl ⟨hpc, rfl, rfl⟩
  · cases hr; exact .inr ⟨hpc, hw, rfl⟩
  · obtain heff | ⟨r', hf, rfl⟩ := exec_cases he
    · obtain ⟨-, -, hok⟩ := heff.unwritten
      cases hr.symm.trans hok
    · cases hr
      exact .inr ⟨hpc, hf.word_eq.trans (encodeUndoesDecode _ _ hi).2, rfl⟩

/-- A tick that reports `Ok` leaves `FAULT` as it was (R222). -/
theorem step_ok_fault_eq {s t : State} (h : step s = .next t) (hok : t.report = .ok) : t.fault = s.fault := by
  obtain ⟨-, rfl⟩ | ⟨-, w, -, -, rfl⟩ | ⟨-, i, -, he⟩ := step_cases h
  · cases hok
  · cases hok
  · obtain heff | ⟨r, -, rfl⟩ := exec_cases he
    · exact heff.unwritten.2.1
    · cases hok

/-- A tick that reports a fault records it, unless `FAULT` holds an earlier one (R222). -/
theorem step_fault_recorded {s t : State} {r : FaultRecord} (h : step s = .next t) (hr : t.report = .fault r) :
    t.fault = some (s.fault.getD r) := by
  obtain ⟨-, -, rfl⟩ | ⟨-, -, rfl⟩ := step_fault_cases h hr <;> rfl

/-! ### Every tick answers a state -/

theorem exec_answers (i : Instr) (s : State) : ∃ t, exec i s = .next t := by
  cases i with
  | ret => cases h : s.pop <;> simp [exec, execRet, h]
  | call nnn => cases h : s.push s.pc <;> simp [exec, execCall, h]
  | ldVxK x => cases h : s.firstHeldKey <;> simp [exec, execLdVxK, h]
  | _ => exact ⟨_, rfl⟩

/-- Settles O10: the two faults of fetch and decode are next states, and every instruction answers one. -/
theorem everyTickAnswersAState : Obligations.EveryTickAnswersAState := by
  unfold Obligations.EveryTickAnswersAState
  intro s
  obtain ⟨-, hb⟩ | ⟨-, _, -, hb⟩ | ⟨-, i, -, hb⟩ := State.beginTick_cases s
  · exact ⟨_, step_of_ended hb⟩
  · exact ⟨_, step_of_ended hb⟩
  · rw [step_of_execute hb]; exact exec_answers i _

/-! ### The obligations about one tick -/

/-- Settles O7: the word at `pc` is its two bytes, and the tick executes what it decodes to. -/
theorem stepExecutesDecodedInstruction : Obligations.StepExecutesDecodedInstruction := by
  unfold Obligations.StepExecutesDecodedInstruction
  exact fun _ _ hpc hi => step_of_instr hpc hi

/-- Moving `pc` and taking a fault changes `pc`, `FAULT` and the report. -/
theorem changesOnly_raise_advanced (s : State) (pc : Word) (r : FaultRecord) :
    ChangesOnly (fun p => p = .pc ∨ p = .fault ∨ p = .report) s
      (({ s with pc := pc, report := .ok } : State).raise r) := by
  intro p hp
  cases p with
  | pc => exact absurd (.inl rfl) hp
  | fault => exact absurd (.inr (.inl rfl)) hp
  | report => exact absurd (.inr (.inr rfl)) hp
  | _ => rfl

/-- A fault taken by a fresh tick is taken by the machine as the last tick left it: what that one reported is
overwritten. -/
theorem takesFault_raise_fresh (s : State) (r : FaultRecord) :
    TakesFault r s (({ s with report := .ok } : State).raise r) := by
  refine ⟨rfl, rfl, fun p hp => ?_⟩
  cases p with
  | fault => exact absurd (.inl rfl) hp
  | report => exact absurd (.inr rfl) hp
  | _ => rfl

/-- Settles O8: the fault of the fetch. -/
theorem fetchOutOfRangeTakesFault : Obligations.FetchOutOfRangeTakesFault := by
  unfold Obligations.FetchOutOfRangeTakesFault
  exact fun s hpc => ⟨_, step_of_outOfRange hpc, takesFault_raise_fresh s _⟩

/-- Settles O9: the fault of the decoder, after the fetch has moved `pc`. -/
theorem unknownOpcodeTakesFault : Obligations.UnknownOpcodeTakesFault := by
  unfold Obligations.UnknownOpcodeTakesFault
  rintro s _ hpc rfl hw
  exact ⟨_, step_of_unknownOpcode hpc hw, rfl, rfl, rfl, changesOnly_raise_advanced s _ _⟩

/-- Settles O11: the two outcomes of a tick. -/
theorem tickRecordsTheFirstFault : Obligations.TickRecordsTheFirstFault := by
  unfold Obligations.TickRecordsTheFirstFault
  exact fun _ _ h => ⟨step_ok_fault_eq h, fun _ => step_fault_recorded h⟩

/-- Settles O13: the fetch moves `pc` unless it fails, and the fault itself changes `FAULT` and the report alone. -/
theorem faultedTickIsPrecise : Obligations.FaultedTickIsPrecise := by
  unfold Obligations.FaultedTickIsPrecise
  intro s t r h hr
  obtain ⟨hpc, -, rfl⟩ | ⟨hpc, -, rfl⟩ := step_fault_cases h hr
  · exact ⟨(if_pos hpc).symm, changesOnly_raise_advanced s s.pc r⟩
  · exact ⟨(if_neg (by omega)).symm, changesOnly_raise_advanced s _ r⟩

/-- Settles O14: an executed instruction's encoding is the fetched word, since the encoder undoes the decoder. -/
theorem reportedWordIsTheFetchedWord : Obligations.ReportedWordIsTheFetchedWord := by
  unfold Obligations.ReportedWordIsTheFetchedWord
  intro s t r h hr
  obtain ⟨hpc, hw, -⟩ | ⟨hpc, hw, -⟩ := step_fault_cases h hr
  · rw [if_pos hpc, hw]
  · rw [if_neg (by omega), hw]; rfl

/-- Going back to where a fetch began undoes it, where the last tick too reported `Ok`. -/
theorem State.jump_back_of_fetched {s : State} (hr : s.report = .ok) (pc : Word) :
    ({ s with pc := pc, report := .ok } : State).jump s.pc = s := by
  rw [← hr]; rfl

/-- Settles O15: the jump undoes the fetch. -/
theorem selfJumpIsAFixedPoint : Obligations.SelfJumpIsAFixedPoint := by
  unfold Obligations.SelfJumpIsAFixedPoint
  intro s nnn hpc hself hr hi
  have hback := State.jump_back_of_fetched hr (s.pc + 2#16)
  rw [step_of_instr hpc hi, exec, execJp, ← hself, hback]

/-- Settles O16: with no key held, the step-back undoes the fetch. -/
theorem waitingTickIsAFixedPoint : Obligations.WaitingTickIsAFixedPoint := by
  unfold Obligations.WaitingTickIsAFixedPoint
  intro s x hpc hkeys hr hi
  have hnone : ({ s with pc := s.pc + 2#16, report := .ok } : State).firstHeldKey = none :=
    (State.firstHeldKey_eq_none_iff _).mpr hkeys
  have hback := State.jump_back_of_fetched hr (s.pc + 2#16)
  rw [step_of_instr hpc hi, exec, execLdVxK]
  simp only [hnone, State.stepBack, BitVec.add_sub_cancel, hback]

/-! ### Runs without a reset -/

theorem Move.keeps_fault {s t : State} {move : Move} {r : FaultRecord}
    (hreset : ∀ rom font seed, move ≠ .reset rom font seed) (h : move.apply s = .next t) (hs : s.fault = some r) :
    t.fault = some r := by
  cases move with
  | reset rom font seed => exact absurd rfl (hreset rom font seed)
  | tick =>
    cases hrep : t.report with
    | ok => exact (step_ok_fault_eq h hrep).trans hs
    | fault r' => rw [step_fault_recorded h hrep, hs]; rfl
  | keyEvent _ _ | timerDec | displayRead _ _ => cases h; exact hs

/-- Settles O12, by induction on the moves. -/
theorem faultSurvivesRunsWithoutReset : Obligations.FaultSurvivesRunsWithoutReset := by
  unfold Obligations.FaultSurvivesRunsWithoutReset
  intro moves
  induction moves with
  | nil => intro s t r _ h hs; cases h; exact hs
  | cons move rest ih =>
    intro s t r hreset h hs
    rw [drive] at h
    split at h
    · next u hu =>
      refine ih u t r (fun rom font seed hmem => hreset rom font seed (.tail _ hmem)) h (Move.keeps_fault ?_ hu hs)
      rintro rom font seed rfl
      exact hreset rom font seed (.head _)
    · cases h
    · cases h

end Sys2Proof.Machine
end

section
/-! The invariant of the machine: every tick and every other move of the driver keeps it (10_state.md R26). -/

namespace Sys2Proof.Machine

open Sys2Proof

/-! ### What keeps the invariant -/

theorem stackFits_mono {depth : Config.StackDepth} {m n : Nat} (h : stackFits depth n) (hmn : m ≤ n) :
    stackFits depth m := by
  cases depth with
  | bounded k _ => exact Nat.le_trans hmn h
  | unbounded => trivial

/-- A stack that fits and is not full has room for one entry more (R31). -/
theorem stackFits_succ {depth : Config.StackDepth} {n : Nat} (h : stackFits depth n)
    (hfull : stackIsFull depth n = false) : stackFits depth (n + 1) := by
  cases depth with
  | bounded k _ =>
    have hne : n ≠ k := by simpa [stackIsFull] using hfull
    exact Nat.lt_of_le_of_ne h hne
  | unbounded => trivial

section
variable {s : State} (hs : s.Inv)
include hs

theorem State.Inv.raise {r : FaultRecord} (hr : r.legal) : (s.raise r).Inv where
  memory := hs.memory
  depth := hs.depth
  returns := hs.returns
  pcBound := hs.pcBound
  recorded r' h := by
    obtain rfl : s.fault.getD r = r' := Option.some.inj h
    cases hf : s.fault with
    | none => exact hr
    | some first => exact hs.recorded first hf
  reported r' h := by cases h; exact hr

theorem State.Inv.jump {p : Word} (hp : p.toNat ≤ 0x10FE) : (s.jump p).Inv := { hs with pcBound := hp }

theorem State.Inv.jump_zext16 (nnn : Addr12) : (s.jump (zext16 nnn)).Inv :=
  hs.jump (by rw [toNat_zext16]; omega)

/-- A skip moves a fetched `pc` by one more instruction at most. -/
theorem State.Inv.jump_skip (hpc : s.pc.toNat ≤ 0x1000) (c : Bool) :
    (s.jump (if c then s.pc + 2#16 else s.pc)).Inv := by
  cases c with
  | false => exact hs.jump hs.pcBound
  | true => exact hs.jump (show (s.pc + 2#16).toNat ≤ 0x10FE by bv_omega)

theorem State.Inv.writeBytes (a : Nat) (bs : List Byte) : ({ s with mem := s.mem.writeBytes a bs } : State).Inv :=
  { hs with memory := Memory.wf_writeBytes a bs hs.memory }

theorem State.Inv.call (hpc : s.pc.toNat ≤ 0x1000) (hfull : stackIsFull s.stackDepth s.stack.length = false)
    (nnn : Addr12) : ({ s with stack := s.stack ++ [s.pc], pc := zext16 nnn } : State).Inv :=
  { hs with
    depth := by simpa using stackFits_succ hs.depth hfull
    returns := by simpa [or_imp, forall_and] using And.intro hs.returns hpc
    pcBound := (hs.jump_zext16 nnn).pcBound }

theorem State.Inv.ret {rest : List Word} {value : Word} (h : s.stack = rest ++ [value]) :
    ({ s with stack := rest, pc := value } : State).Inv :=
  { hs with
    depth := stackFits_mono hs.depth (by simp [h])
    returns := fun a ha => hs.returns a (by simp [h, ha])
    pcBound := Nat.le_trans (hs.returns value (by simp [h])) (by decide) }

/-- The invariant does not depend on what the last tick reported, where it now reports nothing. -/
theorem State.Inv.fresh : ({ s with report := .ok } : State).Inv := { hs with reported := fun _ h => nomatch h }

/-- The fetch of a word keeps the invariant. -/
theorem State.Inv.fetched (hpc : s.pc.toNat ≤ 0xFFE) :
    ({ s with pc := s.pc + 2#16, report := .ok } : State).Inv :=
  hs.fresh.jump (by rw [toNat_pc_add_two hpc]; omega)

/-! ### Every instruction keeps it, from the `pc` that a fetch leaves -/

variable (hlow : 2 ≤ s.pc.toNat) (hhigh : s.pc.toNat ≤ 0x1000)
include hlow hhigh

theorem Effect.inv {i : Instr} {t : State} (h : Effect s t i) : t.Inv := by
  cases i with
  | jp nnn => cases h; exact hs.jump_zext16 nnn
  | jpV0 nnn => cases h; exact hs.jump (by rw [toNat_zext16_add_byte]; omega)
  | seImm _ _ | sneImm _ _ | seReg _ _ | sneReg _ _ | skp _ | sknp _ => cases h; exact hs.jump_skip hhigh _
  | ldVxK x =>
    obtain ⟨-, rfl⟩ | ⟨k, -, rfl⟩ := h
    · exact hs.jump (show (s.pc - 2#16).toNat ≤ 0x10FE by bv_omega)
    · exact { hs with }
  | call nnn => obtain ⟨hfull, rfl⟩ := h; exact hs.call hhigh hfull nnn
  | ret =>
    obtain ⟨-, rfl⟩ | ⟨rest, value, hstack, rfl⟩ := h
    · exact hs
    · exact hs.ret hstack
  | ldBVx _ | storeRegs _ => obtain ⟨-, rfl⟩ := h; exact hs.writeBytes _ _
  | loadRegs _ | drw _ _ _ => obtain ⟨-, rfl⟩ := h; exact { hs with }
  | _ => cases h; exact { hs with }

omit hs in
/-- The fault an instruction takes is one that the machine can raise. -/
theorem Faults.legal {i : Instr} {r : FaultRecord} (h : Faults s r i) : r.legal := by
  have hi : s.i.toNat ≤ 0xFFFF := by omega
  cases i with
  | call nnn => obtain ⟨-, rfl⟩ := h; exact ⟨opField_wordNNN _ _, hlow, hhigh⟩
  | ldBVx _ | storeRegs _ | loadRegs _ =>
    obtain ⟨-, rfl⟩ := h; exact ⟨Nat.le_max_right _ _, max_le hi (by decide)⟩
  | drw _ _ _ => obtain ⟨-, -, rfl⟩ := h; exact ⟨Nat.le_max_right _ _, max_le hi (by decide)⟩
  | _ => exact h.elim

theorem exec_inv {i : Instr} {t : State} (h : exec i s = .next t) : t.Inv := by
  obtain he | ⟨r, hr, rfl⟩ := exec_cases h
  · exact he.inv hs hlow hhigh
  · exact hs.raise (hr.legal hlow hhigh)

end

/-! ### Ticks -/

/-- Settles O17: fetch and decode keep the invariant, and leave `pc` where every instruction keeps it. -/
theorem stepKeepsInvariant : Obligations.StepKeepsInvariant := by
  unfold Obligations.StepKeepsInvariant
  intro s t hs h
  obtain ⟨hpc, rfl⟩ | ⟨hpc, w, -, hw, rfl⟩ | ⟨hpc, i, -, he⟩ := step_cases h
  · exact hs.fresh.raise ⟨Nat.le_max_right _ _, max_le (by omega) (by decide)⟩
  · exact (hs.fetched hpc).raise ⟨hw, hpc⟩
  · have hadvance : (s.pc + 2#16).toNat = s.pc.toNat + 2 := toNat_pc_add_two hpc
    exact exec_inv (hs.fetched hpc) (by simp only [hadvance]; omega) (by simp only [hadvance]; omega) he

/-! ### Reset -/

/-- The machine that a successful reset makes (70_reset_and_hazards.md R260). -/
def State.loaded (depth : Config.StackDepth) (rom font : List Byte) (seed : Nat) : State :=
  { State.reset with
    stackDepth := depth, rng := seed, mem := (Memory.writeBytes [] 0 font).writeBytes Config.romBase rom }

/-- All that a reset has to be supplied with is there, and the ROM fits (60_exceptions.md R244). -/
def Loadable (rom font : Option (List Byte)) : Prop :=
  ∃ r f, rom = some r ∧ font = some f ∧ r.length ≤ 3584 ∧ f.length = 512

theorem State.resetWith_of_loadable (depth : Config.StackDepth) {rom font : List Byte} (seed : Nat)
    (hrom : rom.length ≤ 3584) (hfont : font.length = 512) :
    State.resetWith depth (some rom) (some font) seed = .next (State.loaded depth rom font seed) :=
  if_pos ⟨hrom, hfont⟩

/-- A reset makes the loaded machine, or it fails. -/
theorem State.resetWith_cases (depth : Config.StackDepth) (rom font : Option (List Byte)) (seed : Nat) :
    (∃ r f, rom = some r ∧ font = some f ∧ r.length ≤ 3584 ∧ f.length = 512 ∧
      State.resetWith depth rom font seed = .next (State.loaded depth r f seed)) ∨
    ¬ Loadable rom font ∧ State.resetWith depth rom font seed = .fault .loadFailure := by
  by_cases h : Loadable rom font
  · obtain ⟨r, f, rfl, rfl, hrom, hfont⟩ := h
    exact .inl ⟨r, f, rfl, rfl, hrom, hfont, State.resetWith_of_loadable depth seed hrom hfont⟩
  · refine .inr ⟨h, ?_⟩
    match rom, font with
    | some r, some f => exact if_neg fun ⟨hrom, hfont⟩ => h ⟨r, f, rfl, rfl, hrom, hfont⟩
    | some _, none | none, some _ | none, none => rfl

/-- Settles O22: the two cases of a reset exclude each other. -/
theorem loadFailureExactly : Obligations.LoadFailureExactly := by
  unfold Obligations.LoadFailureExactly
  intro depth rom font seed
  obtain ⟨r, f, rfl, rfl, hrom, hfont, h⟩ | ⟨hload, h⟩ := State.resetWith_cases depth rom font seed
  · rw [h]
    exact ⟨(nomatch ·), fun hload => absurd ⟨r, f, rfl, rfl, hrom, hfont⟩ hload⟩
  · exact ⟨fun _ => hload, fun _ => h⟩

/-- Every address after a reset: the font table, then the ROM, then zeros, since a ROM starts where a font table of 512
bytes ends. -/
theorem State.read_loaded (depth : Config.StackDepth) {rom font : List Byte} (seed : Nat)
    (hrom : rom.length ≤ 3584) (hfont : font.length = 512) (a : Nat) :
    (State.loaded depth rom font seed).mem.read a =
      if a < 512 then font.getD a 0x00#8 else rom.getD (a - 512) 0x00#8 := by
  show ((Memory.writeBytes [] 0 font).writeBytes 512 rom).read a = _
  by_cases ha : a < 512
  · rw [if_pos ha, Memory.read_writeBytes_outside _ _ _ (.inl ha), List.getD_eq_getElem _ _ (by omega)]
    simpa using Memory.read_writeBytes_inside [] 0 font (k := a) (by omega) (by simp [hfont, Config.memSize])
  rw [if_neg ha]
  by_cases hr : a - 512 < rom.length
  · rw [List.getD_eq_getElem _ _ hr]
    simpa [show 512 + (a - 512) = a by omega] using
      Memory.read_writeBytes_inside (Memory.writeBytes [] 0 font) 512 rom hr (by simp [Config.memSize]; omega)
  · rw [List.getD_eq_default _ _ (by omega), Memory.read_writeBytes_outside _ _ _ (.inr (by omega)),
      Memory.read_writeBytes_outside _ _ _ (.inr (by omega))]
    exact if_neg ha

/-- Settles O21: the loaded machine is the reset one with another memory, `rng` and `STACK_DEPTH`. -/
theorem resetMovePlacesFontAndRom : Obligations.ResetMovePlacesFontAndRom := by
  unfold Obligations.ResetMovePlacesFontAndRom
  intro depth rom font seed hrom hfont
  refine ⟨_, State.resetWith_of_loadable depth seed hrom hfont, State.read_loaded depth seed hrom hfont, rfl, rfl,
    fun p hp => ?_⟩
  cases p with
  | rng => exact absurd (.inl rfl) hp
  | stackDepth => exact absurd (.inr (.inl rfl)) hp
  | byte a => exact absurd (.inr (.inr ⟨a, rfl⟩)) hp
  | _ => rfl

/-- Settles O20: each part of `State.reset` is read off its definition. -/
theorem resetState : Obligations.ResetState := by
  unfold Obligations.ResetState
  refine ⟨⟨by decide, rfl⟩, rfl, fun r => ?v, rfl, rfl, rfl, rfl, rfl, Display.pixel_clear, fun k => ?key,
    fun a ha => ?font, fun a ha => ?above⟩
  case v => simp [State.getV_eq, State.reset]
  case key =>
    rw [State.keyHeld, State.reset, Vector.toList_replicate]
    exact (List.getD_eq_getElem?_getD ..).trans (List.getElem?_getD_replicate_default_eq false 16 k)
  case font => exact if_pos ha
  case above => exact if_neg (Nat.not_lt.mpr ha)

theorem State.inv_loaded (depth : Config.StackDepth) (rom font : List Byte) (seed : Nat) :
    (State.loaded depth rom font seed).Inv where
  memory := Memory.wf_writeBytes _ _ (Memory.wf_writeBytes _ _ Memory.wf_reset)
  depth := by cases depth <;> simp [stackFits, State.loaded, State.reset]
  returns := by simp [State.loaded, State.reset]
  pcBound := show (0x0200#16).toNat ≤ 0x10FE by decide
  recorded := by simp [State.loaded, State.reset]
  reported := by simp [State.loaded, State.reset]

/-- Settles O18: `State.reset` is the machine that a reset with nothing to place makes. -/
theorem resetMeetsInvariant : Obligations.ResetMeetsInvariant := by
  unfold Obligations.ResetMeetsInvariant
  exact State.inv_loaded Parameters.defaultStackDepth [] [] 0

/-! ### The other moves -/

theorem exec_stackDepth_eq {i : Instr} {s t : State} (h : exec i s = .next t) : t.stackDepth = s.stackDepth := by
  obtain he | ⟨r, -, rfl⟩ := exec_cases h
  · exact he.unwritten.1
  · exact State.raise_stackDepth s r

theorem step_stackDepth_eq {s t : State} (h : step s = .next t) : t.stackDepth = s.stackDepth := by
  obtain ⟨-, rfl⟩ | ⟨-, w, -, -, rfl⟩ | ⟨-, i, -, he⟩ := step_cases h
  · rfl
  · rfl
  · simpa using exec_stackDepth_eq he

/-- Settles O19: a reset makes a loaded machine, a tick is O17, and the other moves reach no part that the invariant
speaks of. -/
theorem driverMovesKeepInvariant : Obligations.DriverMovesKeepInvariant := by
  unfold Obligations.DriverMovesKeepInvariant
  refine ⟨fun s t move hs h => ?inv, fun s t move h => ?depth⟩
  case inv =>
    cases move with
    | reset rom font seed =>
      obtain ⟨r, f, -, -, -, -, hload⟩ | ⟨-, hfail⟩ := State.resetWith_cases s.stackDepth rom font seed
      · cases hload.symm.trans h; exact State.inv_loaded _ r f seed
      · cases hfail.symm.trans h
    | tick => exact stepKeepsInvariant s t hs h
    | keyEvent _ _ | timerDec => cases h; exact { hs with }
    | displayRead _ _ => cases h; exact hs
  case depth =>
    cases move with
    | reset rom font seed =>
      obtain ⟨r, f, -, -, -, -, hload⟩ | ⟨-, hfail⟩ := State.resetWith_cases s.stackDepth rom font seed
      · cases hload.symm.trans h; rfl
      · cases hfail.symm.trans h
    | tick => exact step_stackDepth_eq h
    | keyEvent _ _ | timerDec | displayRead _ _ => cases h; rfl

end Sys2Proof.Machine
end

section
/-! Which instruction writes which part (10_state.md, 20_memory.md section 1), and which parts no instruction reads. -/

namespace Sys2Proof.Machine

open Sys2Proof

/-! ### Writers -/

/-- The writers of each part beside the registers, the display and the keypad, effect by effect. -/
theorem Effect.writers {i : Instr} {s t : State} (h : Effect s t i) :
    (t.mem ≠ s.mem → ∃ x, i = .ldBVx x ∨ i = .storeRegs x) ∧
    (t.i ≠ s.i → ∃ x nnn, i = .ldI nnn ∨ i = .addIVx x ∨ i = .ldFVx x) ∧
    (t.stack ≠ s.stack → ∃ nnn, i = .call nnn ∨ i = .ret) ∧
    ((∀ x nn, i ≠ .rnd x nn) → t.rng = s.rng) ∧
    (t.dt ≠ s.dt → ∃ x, i = .ldDtVx x) ∧
    (t.st ≠ s.st → ∃ x, i = .ldStVx x) := by
  cases i with
  | ret => obtain ⟨-, rfl⟩ | ⟨_, _, -, rfl⟩ := h <;> simp
  | ldVxK _ => obtain ⟨-, rfl⟩ | ⟨_, -, rfl⟩ := h <;> simp
  | call _ | ldBVx _ | storeRegs _ | loadRegs _ | drw _ _ _ => obtain ⟨-, rfl⟩ := h; simp
  | _ => cases h; simp

/-- Settles O25: the effects by their writers, and a fault writes none of these parts. -/
theorem partsHaveTheirWriters : Obligations.PartsHaveTheirWriters := by
  unfold Obligations.PartsHaveTheirWriters
  intro i s t h
  obtain he | ⟨r, -, rfl⟩ := exec_cases h
  · exact he.writers
  · simp

theorem Effect.pc_writers {i : Instr} {s t : State} (h : Effect s t i) (hne : t.pc ≠ s.pc) :
    ∃ (x y : Reg) (nn : Byte) (nnn : Addr12), i ∈ ([.ret, .jp nnn, .call nnn, .jpV0 nnn, .seImm x nn, .sneImm x nn,
      .seReg x y, .sneReg x y, .skp x, .sknp x, .ldVxK x] : List Instr) := by
  cases i with
  | ret | jp _ | call _ | jpV0 _ | seImm _ _ | sneImm _ _ | seReg _ _ | sneReg _ _ | skp _ | sknp _ | ldVxK _ => simp
  | ldBVx _ | storeRegs _ | loadRegs _ | drw _ _ _ => obtain ⟨-, rfl⟩ := h; exact absurd rfl hne
  | _ => cases h; exact absurd rfl hne

/-- Settles O26: every other effect leaves `pc`, and so does a fault. -/
theorem pcHasItsWriters : Obligations.PcHasItsWriters := by
  unfold Obligations.PcHasItsWriters
  intro i s t h hne
  obtain he | ⟨r, -, rfl⟩ := exec_cases h
  · exact he.pc_writers hne
  · exact absurd (State.raise_pc s r) hne

/-- An effect leaves a register that the instruction does not name and does not use as its flag. -/
theorem Effect.getV_eq {i : Instr} {s t : State} {r : Reg} (h : Effect s t i) (hdest : namesDestination r i = false)
    (hflag : r = VF → writesFlag i = false) : t.getV r = s.getV r := by
  cases i with
  | ldImm _ _ | addImm _ _ | ldReg _ _ | orReg _ _ | andReg _ _ | xorReg _ _ | rnd _ _ | ldVxDt _ =>
    cases h; exact State.getV_setV_ne _ _ (by simpa [namesDestination] using hdest)
  | addReg _ _ | sub _ _ | subn _ _ | shr _ _ | shl _ _ =>
    cases h
    exact State.getV_setResultAndFlag_ne s _ _ (by simpa [namesDestination] using hdest)
      (fun hr => nomatch hflag hr)
  | ldVxK x =>
    obtain ⟨-, rfl⟩ | ⟨k, -, rfl⟩ := h
    · rfl
    · exact State.getV_setV_ne s _ (by simpa [namesDestination] using hdest)
  | loadRegs x =>
    obtain ⟨-, rfl⟩ := h
    refine changesOnly_loadBlock s _ (.reg r) ?_
    rintro ⟨_, hr, ⟨⟩⟩
    have habove : x.toNat < r.toNat := by simpa [namesDestination] using hdest
    rw [Memory.length_readBytes] at hr
    omega
  | drw x y n => obtain ⟨-, rfl⟩ := h; exact State.getV_setV_ne _ _ (fun hr => nomatch hflag hr)
  | ret => obtain ⟨-, rfl⟩ | ⟨_, _, -, rfl⟩ := h <;> rfl
  | call _ | ldBVx _ | storeRegs _ => obtain ⟨-, rfl⟩ := h; rfl
  | _ => cases h; rfl

/-- Settles O27: the effects leave every other register, and a fault leaves all of them. -/
theorem registersHaveTheirWriters : Obligations.RegistersHaveTheirWriters := by
  unfold Obligations.RegistersHaveTheirWriters
  intro i s t r h hne
  obtain he | ⟨f, -, rfl⟩ := exec_cases h
  · by_contra hno
    simp only [not_or, not_and, Bool.not_eq_true] at hno
    obtain ⟨hdest, hflag⟩ := hno
    exact hne (he.getV_eq hdest hflag)
  · exact absurd (State.getV_raise s f r) hne

/-- Each of the six leaves a flag byte in `VF`, also when `VF` is its destination (10_state.md R22). -/
theorem Effect.getV_VF {i : Instr} {s t : State} (h : Effect s t i) (hflag : writesFlag i = true) :
    ∃ c, t.getV VF = flagByte c := by
  cases i with
  | addReg _ _ | sub _ _ | subn _ _ | shr _ _ | shl _ _ => cases h; exact ⟨_, State.getV_setResultAndFlag_VF ..⟩
  | drw _ _ _ => obtain ⟨-, rfl⟩ := h; exact ⟨_, State.getV_setV_same ..⟩
  | _ => cases hflag

/-- The one flag writer that can take a fault is `DRW`. -/
theorem Faults.of_writesFlag {i : Instr} {s : State} {r : FaultRecord} (h : Faults s r i)
    (hflag : writesFlag i = true) : ∃ x y n, i = .drw x y n ∧ n ≠ 0x0#4 ∧ 0x1000 < s.dataAddress 0 + n.toNat := by
  cases i with
  | drw x y n =>
    obtain ⟨hn, hrange, -⟩ := h
    exact ⟨x, y, n, rfl, fun h0 => hn (congrArg BitVec.toNat h0), hrange⟩
  | call _ | ldBVx _ | storeRegs _ | loadRegs _ => cases hflag
  | _ => exact h.elim

/-- Settles O28: a flag byte is 0 or 1. -/
theorem flagIsZeroOrOne : Obligations.FlagIsZeroOrOne := by
  unfold Obligations.FlagIsZeroOrOne
  intro i s t hflag h
  obtain he | ⟨r, hf, rfl⟩ := exec_cases h
  · obtain ⟨c, hc⟩ := he.getV_VF hflag
    rw [hc, ← or_assoc]
    exact .inl (flagByte_zero_or_one c)
  · exact .inr (.inr (hf.of_writesFlag hflag))

/-! ### Executing an instruction is exactly its effect or its fault -/

theorem exec_of_effect {i : Instr} {s t : State} (h : Effect s t i) : exec i s = .next t := by
  cases i with
  | ret =>
    obtain ⟨hstack, rfl⟩ | ⟨rest, value, hstack, rfl⟩ := h
    · exact exec_ret_of_empty hstack
    · exact exec_ret_of_append hstack
  | call nnn => obtain ⟨hfull, rfl⟩ := h; simp [exec, execCall, State.push, hfull, State.jump]
  | ldVxK x =>
    obtain ⟨hkey, rfl⟩ | ⟨k, hkey, rfl⟩ := h
    · simp only [exec, execLdVxK, hkey, State.stepBack]
    · simp only [exec, execLdVxK, hkey]
  | ldBVx _ | storeRegs _ | loadRegs _ =>
    obtain ⟨hrange, rfl⟩ := h; exact congrArg _ (State.withRange_inside s _ _ (.inr hrange))
  | drw _ _ _ => obtain ⟨hrange, rfl⟩ := h; exact congrArg _ (State.withRange_inside s _ _ hrange)
  | seImm _ _ | sneImm _ _ | seReg _ _ | sneReg _ _ | skp _ | sknp _ =>
    cases h; exact congrArg _ (State.skipIf_eq s _)
  | _ => cases h; rfl

theorem exec_of_faults {i : Instr} {s : State} {r : FaultRecord} (h : Faults s r i) :
    exec i s = .next (s.raise r) := by
  cases i with
  | call nnn => obtain ⟨hfull, rfl⟩ := h; simp [exec, execCall, State.push, hfull]
  | ldBVx _ | storeRegs _ | loadRegs _ =>
    obtain ⟨hrange, rfl⟩ := h; exact congrArg _ (State.withRange_outside s _ _ (by omega) hrange)
  | drw _ _ _ => obtain ⟨hn, hrange, rfl⟩ := h; exact congrArg _ (State.withRange_outside s _ _ hn hrange)
  | _ => exact h.elim

/-! ### Parts that are not read -/

/-- The effect does not depend on `ST`, `FAULT` and the report, and beside them it is the same. -/
theorem Effect.of_unread {i : Instr} {s t : State} (h : Effect s t i) (st : Byte) (fault : Option FaultRecord)
    (report : TickReport) : ∃ u, Effect { s with st := st, fault := fault, report := report } u i ∧
      u = { t with st := u.st, fault := u.fault, report := u.report } := by
  cases i with
  | ret =>
    obtain ⟨hstack, rfl⟩ | ⟨rest, value, hstack, rfl⟩ := h
    · exact ⟨_, .inl ⟨hstack, rfl⟩, rfl⟩
    · exact ⟨_, .inr ⟨rest, value, hstack, rfl⟩, rfl⟩
  | ldVxK _ =>
    obtain ⟨hkey, rfl⟩ | ⟨k, hkey, rfl⟩ := h
    · exact ⟨_, .inl ⟨hkey, rfl⟩, rfl⟩
    · exact ⟨_, .inr ⟨k, hkey, rfl⟩, rfl⟩
  | call _ | ldBVx _ | storeRegs _ | loadRegs _ | drw _ _ _ =>
    obtain ⟨hguard, rfl⟩ := h; exact ⟨_, ⟨hguard, rfl⟩, rfl⟩
  | _ => cases h; exact ⟨_, rfl, rfl⟩

/-- A fault depends on the stack, `STACK_DEPTH`, `pc` and `I` alone. -/
theorem Faults.congr {i : Instr} {s s' : State} {r : FaultRecord} (h : Faults s r i) (hstack : s'.stack = s.stack)
    (hdepth : s'.stackDepth = s.stackDepth) (hpc : s'.pc = s.pc) (hi : s'.i = s.i) : Faults s' r i := by
  cases i with
  | call _ | ldBVx _ | storeRegs _ | loadRegs _ | drw _ _ _ =>
    simpa only [Faults, State.dataAddress, hstack, hdepth, hpc, hi] using h
  | _ => exact h.elim

/-- Settles O29: neither the effect nor the fault of an instruction reads the three. -/
theorem unreadPartsAreInvisible : Obligations.UnreadPartsAreInvisible := by
  unfold Obligations.UnreadPartsAreInvisible
  intro i s t st fault report h
  obtain he | ⟨r, hf, rfl⟩ := exec_cases h
  · obtain ⟨u, hu, hsame⟩ := he.of_unread st fault report
    exact ⟨u, exec_of_effect hu, hsame⟩
  · exact ⟨_, exec_of_faults (hf.congr rfl rfl rfl rfl), rfl⟩

/-- An effect other than a draw carries any `rng` over. -/
theorem Effect.with_rng {i : Instr} {s t : State} (h : Effect s t i) (hrnd : ∀ x nn, i ≠ .rnd x nn) (rng : Nat) :
    Effect { s with rng := rng } { t with rng := rng } i := by
  cases i with
  | rnd x nn => exact absurd rfl (hrnd x nn)
  | ret =>
    obtain ⟨hstack, rfl⟩ | ⟨rest, value, hstack, rfl⟩ := h
    · exact .inl ⟨hstack, rfl⟩
    · exact .inr ⟨rest, value, hstack, rfl⟩
  | ldVxK _ =>
    obtain ⟨hkey, rfl⟩ | ⟨k, hkey, rfl⟩ := h
    · exact .inl ⟨hkey, rfl⟩
    · exact .inr ⟨k, hkey, rfl⟩
  | call _ | ldBVx _ | storeRegs _ | loadRegs _ | drw _ _ _ => obtain ⟨hguard, rfl⟩ := h; exact ⟨hguard, rfl⟩
  | _ => cases h; rfl

/-- Settles O30: neither the effect of an instruction other than `RND` nor a fault reads or writes `rng`. -/
theorem rngIsReadByRndOnly : Obligations.RngIsReadByRndOnly := by
  unfold Obligations.RngIsReadByRndOnly
  intro i s t rng hrnd h
  obtain he | ⟨r, hf, rfl⟩ := exec_cases h
  · exact exec_of_effect (he.with_rng hrnd rng)
  · exact exec_of_faults (hf.congr rfl rfl rfl rfl)

end Sys2Proof.Machine
end

section
/-! Calls, the wait for a key, constants, the random byte and the driver's small moves. -/

namespace Sys2Proof.Machine

open Sys2Proof

/-! ### Control flow (41_control_flow.md) -/

/-- Settles O31: `SYS` has the empty effect. -/
theorem sysHasNoEffect : Obligations.SysHasNoEffect := by
  unfold Obligations.SysHasNoEffect
  exact fun nnn s => ⟨s, exec_of_effect (i := .sys nnn) rfl, rfl⟩

/-- A stack is not full where it has no bound, or another number of entries than its bound (R31). -/
theorem stackIsFull_eq_false {depth : Config.StackDepth} {entries : Nat}
    (h : depth = .unbounded ∨ ∃ n hn, depth = .bounded n hn ∧ entries ≠ n) : stackIsFull depth entries = false := by
  obtain rfl | ⟨n, hn, rfl, hne⟩ := h
  · rfl
  · simpa [stackIsFull] using hne

/-- Settles O34: `CALL` has its effect on a stack with room, and takes its fault on a full one. -/
theorem callPushesAndJumps : Obligations.CallPushesAndJumps := by
  unfold Obligations.CallPushesAndJumps
  refine fun nnn s => ⟨fun hroom => ?room, ?full⟩
  case room =>
    exact ⟨_, exec_of_effect (i := .call nnn) ⟨stackIsFull_eq_false hroom, rfl⟩, rfl, toNat_zext16 nnn,
      changesOnly_stackAndPc s _ _⟩
  case full =>
    rintro ⟨n, hn, hdepth, hlen⟩
    have hfull : stackIsFull s.stackDepth s.stack.length = true := by rw [hdepth, stackIsFull_bounded, hlen]
    exact ⟨_, exec_of_faults (i := .call nnn) ⟨hfull, rfl⟩, takesFault_raise s _⟩

/-- Settles O39: the call left `pc` on top of the stack, and the return pops it. -/
theorem returnUndoesCall : Obligations.ReturnUndoesCall := by
  unfold Obligations.ReturnUndoesCall
  intro nnn s t at_ hroom h
  obtain ⟨-, rfl⟩ | ⟨r, ⟨hfull, -⟩, -⟩ := exec_cases h
  · exact exec_ret_of_append rfl
  · rw [hroom] at hfull; cases hfull

theorem State.firstHeldKey_of_least {s : State} {k : Nat} (hk : k < 16) (hheld : s.keyHeld k = true)
    (hleast : ∀ j < k, s.keyHeld j = false) : s.firstHeldKey = some k := by
  rw [State.firstHeldKey, List.find?_range_eq_some]
  simpa [hheld, hk] using hleast

/-- Settles O38: the least held key is the one found, and a key number fits a byte; with none, `pc` steps back. -/
theorem waitForKeyTakesLeastHeld : Obligations.WaitForKeyTakesLeastHeld := by
  unfold Obligations.WaitForKeyTakesLeastHeld
  refine fun x s => ⟨fun k hk hheld hleast => ?held, fun hnone => ?none⟩
  case held =>
    have hfirst := State.firstHeldKey_of_least hk hheld hleast
    refine ⟨_, exec_of_effect (i := .ldVxK x) (.inr ⟨k, hfirst, rfl⟩), ?_, changesOnly_setV s x _⟩
    rw [State.getV_setV_same, BitVec.toNat_ofNat]
    omega
  case none =>
    have hfirst := (State.firstHeldKey_eq_none_iff s).mpr hnone
    refine ⟨_, exec_of_effect (i := .ldVxK x) (.inl ⟨hfirst, rfl⟩), ?_, changesOnly_jump s _⟩
    rw [State.jump_pc, BitVec.toNat_sub]
    simp only [BitVec.toNat_ofNat]
    omega

/-! ### Constants, the random byte, the glyph address -/

/-- Settles O40: one register write, and one write of `I`. -/
theorem loadConstants : Obligations.LoadConstants := by
  unfold Obligations.LoadConstants
  exact ⟨fun x nn s => ⟨_, rfl, s.getV_setV_same x nn, changesOnly_setV s x nn⟩,
    fun nnn s => ⟨_, rfl, toNat_zext16 nnn, changesOnly_i s _⟩⟩

/-- A draw and a register write change the register and `rng`. -/
theorem changesOnly_setV_rng (s : State) (x : Reg) (b : Byte) (rng : Nat) :
    ChangesOnly (fun p => p = .reg x ∨ p = .rng) s (({ s with rng := rng } : State).setV x b) := by
  intro p hp
  cases p with
  | reg r => exact State.getV_setV_ne _ b fun h => hp (.inl (by rw [h]))
  | rng => exact absurd (.inr rfl) hp
  | _ => rfl

/-- Settles O46: one draw, whose byte is masked, and one register write. -/
theorem rndDrawsOneByteAndMasks : Obligations.RndDrawsOneByteAndMasks := by
  unfold Obligations.RndDrawsOneByteAndMasks
  exact fun x nn s => ⟨_, exec_of_effect (i := .rnd x nn) rfl, State.getV_setV_same .., rfl,
    changesOnly_setV_rng s x _ _⟩

/-- Five times a byte fits a word (43_index_memory_timers.md R182). -/
theorem toNat_fontAddress (digit : Byte) : (fontAddress digit).toNat = 5 * digit.toNat := by
  rw [fontAddress, BitVec.toNat_ofNat, Config.glyphBytes]
  omega

/-- Settles O48: one write of `I`. -/
theorem fontAddressIsFiveTimes : Obligations.FontAddressIsFiveTimes := by
  unfold Obligations.FontAddressIsFiveTimes
  exact fun x s => ⟨_, rfl, toNat_fontAddress _, changesOnly_i s _⟩

/-! ### Key events and timers (60_exceptions.md R245, R246) -/

/-- Every key after an event: the key of the event as the event says, any other as before. -/
theorem State.keyHeld_keyEvent (s : State) (k : Fin 16) (held : Bool) (j : Nat) :
    (s.keyEvent k held).keyHeld j = if j = k.val then held else s.keyHeld j := by
  have hk := k.isLt
  simp only [State.keyHeld, State.keyEvent, Vector.toList_set, List.getD_eq_getElem?_getD, List.getElem?_set,
    Vector.length_toList, hk, if_true, eq_comm (a := k.val)]
  split <;> simp

theorem changesOnly_keyEvent (s : State) (k : Fin 16) (held : Bool) :
    ChangesOnly (fun p => p = .key k.val) s (s.keyEvent k held) := by
  intro p hp
  cases p with
  | key j => exact (s.keyHeld_keyEvent k held j).trans (if_neg fun h => hp (by rw [h]))
  | _ => rfl

theorem changesOnly_timerDec (s : State) : ChangesOnly (fun p => p = .dt ∨ p = .st) s s.timerDec := by
  intro p hp
  cases p with
  | dt => exact absurd (.inl rfl) hp
  | st => exact absurd (.inr rfl) hp
  | _ => rfl

/-- A decrement is subtraction on the natural numbers, which stops at 0. -/
theorem toNat_decrement (timer : Byte) : (decrement timer).toNat = timer.toNat - 1 := by
  unfold decrement
  split
  · subst timer; rfl
  · bv_omega

/-- Settles O60: the key that was set reads as it was set, and each timer is decremented. -/
theorem keyEventAndTimerDec : Obligations.KeyEventAndTimerDec := by
  unfold Obligations.KeyEventAndTimerDec
  exact fun s => ⟨fun k held => ⟨_, rfl, (s.keyHeld_keyEvent k held k.val).trans (if_pos rfl),
      changesOnly_keyEvent s k held⟩,
    ⟨_, rfl, toNat_decrement s.dt, toNat_decrement s.st, changesOnly_timerDec s⟩⟩

end Sys2Proof.Machine
end

section
/-! The memory instructions (43_index_memory_timers.md section 2) and the canonical form of memory. -/

namespace Sys2Proof.Machine

open Sys2Proof

/-! ### Data addresses -/

/-- A block of `n + 1` bytes from `I` on exists exactly where its last address does (20_memory.md R55). -/
theorem State.block_inside {s : State} {n : Nat} (h : s.dataAddress n < 0x1000) :
    s.dataAddress 0 + (n + 1) ≤ Config.memSize := h

/-- A block whose last address does not exist is out of range. -/
theorem State.block_outside {s : State} {n : Nat} (h : 0x1000 ≤ s.dataAddress n) :
    Config.memSize < s.dataAddress 0 + (n + 1) := Nat.lt_succ_of_le h

/-! ### Stores -/

/-- The byte of a stored block at `I + k`. -/
theorem State.read_stored (s : State) {bs : List Byte} {k : Nat} (hk : k < bs.length)
    (h : s.dataAddress 0 + bs.length ≤ Config.memSize) :
    (s.mem.writeBytes (s.dataAddress 0) bs).read (s.dataAddress k) = bs[k] :=
  Memory.read_writeBytes_inside s.mem (s.dataAddress 0) bs hk h

/-- Settles O49: the three digits are stored where they fit. -/
theorem bcdStoresThreeDigits : Obligations.BcdStoresThreeDigits := by
  unfold Obligations.BcdStoresThreeDigits
  refine fun x s => ⟨fun hin => ?inside, fun hout => ?outside⟩
  case inside =>
    have hrange : s.dataAddress 0 + 3 ≤ Config.memSize := State.block_inside hin
    have hdigit {k : Nat} (hk : k < 3) := s.read_stored (bs := bcdDigits (s.getV x)) hk hrange
    have hv : (s.getV x).toNat < 256 := (s.getV x).isLt
    refine ⟨_, exec_of_effect (i := .ldBVx x) ⟨hrange, rfl⟩, ?_, ?_, ?_,
      changesOnly_writeBytes s (s.dataAddress 0) (bcdDigits (s.getV x))⟩
    · rw [hdigit (k := 0) (by decide)]; simp [bcdDigits]; omega
    · rw [hdigit (k := 1) (by decide)]; simp [bcdDigits]; omega
    · rw [hdigit (k := 2) (by decide)]; simp [bcdDigits]; omega
  case outside =>
    exact ⟨_, exec_of_faults (i := .ldBVx x) ⟨State.block_outside hout, rfl⟩, takesFault_raise s _⟩

/-- Each register of a stored block is at its place. -/
theorem State.read_stored_blockV {s : State} {x : Reg} (hin : s.dataAddress x.toNat < 0x1000) {j : Reg}
    (hj : j.toNat ≤ x.toNat) :
    (s.mem.writeBytes (s.dataAddress 0) (s.blockV x)).read (s.dataAddress j.toNat) = s.getV j := by
  have hlen : j.toNat < (s.blockV x).length := by rw [State.length_blockV]; omega
  rw [s.read_stored hlen (by rw [State.length_blockV]; exact State.block_inside hin), State.getElem_blockV,
    BitVec.ofNat_toNat, BitVec.setWidth_eq]

/-- Two registers in turn are stored as the word of their bytes, the lower-numbered one high (20_memory.md R58). -/
theorem State.readWord_stored_blockV {s : State} {x : Reg} (hin : s.dataAddress x.toNat < 0x1000) {j : Reg}
    (hj : j.toNat + 1 ≤ x.toNat) : (s.mem.writeBytes (s.dataAddress 0) (s.blockV x)).readWord (s.dataAddress j.toNat) =
      wordOfBytes (s.getV j) (s.getV (j + 1)) := by
  have hnext : (j + 1).toNat = j.toNat + 1 := by
    rw [BitVec.toNat_add]; exact Nat.mod_eq_of_lt (Nat.lt_of_le_of_lt hj x.isLt)
  have hlow := State.read_stored_blockV hin (j := j + 1) (by omega)
  rw [hnext] at hlow
  rw [Memory.readWord, State.read_stored_blockV hin (by omega)]
  exact congrArg (wordOfBytes _) hlow

/-- A store answers the state with the block stored where the block exists. -/
theorem exec_storeRegs_inside {s : State} {x : Reg} (hin : s.dataAddress x.toNat < 0x1000) :
    exec (.storeRegs x) s = .next { s with mem := s.mem.writeBytes (s.dataAddress 0) (s.blockV x) } :=
  exec_of_effect (i := .storeRegs x) ⟨State.block_inside hin, rfl⟩

/-- Settles O50: the block is stored where it fits. -/
theorem storeRegistersFromIndex : Obligations.StoreRegistersFromIndex := by
  unfold Obligations.StoreRegistersFromIndex
  refine fun x s => ⟨fun hin => ?inside, fun hout => ?outside⟩
  case inside =>
    refine ⟨_, exec_storeRegs_inside hin, fun j hj => State.read_stored_blockV hin hj, ?_⟩
    refine (changesOnly_writeBytes s _ _).mono fun p ⟨k, hk, hp⟩ => ⟨k, ?_, hp⟩
    rw [State.length_blockV] at hk
    omega
  case outside =>
    exact ⟨_, exec_of_faults (i := .storeRegs x) ⟨State.block_outside hout, rfl⟩, takesFault_raise s _⟩

/-! ### Loads -/

/-- The state after a load of `V[0]..V[x]` (R185). -/
def State.blockLoaded (s : State) (x : Reg) : State :=
  { s with v := loadBlock s.v 0 (s.mem.readBytes (s.dataAddress 0) (x.toNat + 1)) }

theorem exec_loadRegs_inside {s : State} {x : Reg} (hin : s.dataAddress x.toNat < 0x1000) :
    exec (.loadRegs x) s = .next (s.blockLoaded x) :=
  exec_of_effect (i := .loadRegs x) ⟨State.block_inside hin, rfl⟩

/-- Every register after a load: those of the block from memory, the others as before. -/
theorem State.getV_blockLoaded (s : State) (x j : Reg) : (s.blockLoaded x).getV j =
    if j.toNat ≤ x.toNat then s.mem.read (s.dataAddress j.toNat) else s.getV j := by
  show (loadBlock s.v 0 _)[j.toNat] = _
  rw [getElem_loadBlock]
  by_cases hj : j.toNat ≤ x.toNat
  · rw [dif_pos ⟨Nat.zero_le _, by simp; omega⟩, if_pos hj, Memory.getElem_readBytes]
    rfl
  · rw [dif_neg (by simp; omega), if_neg hj]
    rfl

/-- Settles O51: the block is loaded where it exists. -/
theorem loadRegistersFromIndex : Obligations.LoadRegistersFromIndex := by
  unfold Obligations.LoadRegistersFromIndex
  refine fun x s => ⟨fun hin => ?inside, fun hout => ?outside⟩
  case inside =>
    refine ⟨_, exec_loadRegs_inside hin, fun j hj => (s.getV_blockLoaded x j).trans (if_pos hj), ?_⟩
    refine (changesOnly_loadBlock s _).mono fun p ⟨j, hj, hp⟩ => ⟨j, ?_, hp⟩
    rw [Memory.length_readBytes] at hj
    omega
  case outside =>
    exact ⟨_, exec_of_faults (i := .loadRegs x) ⟨State.block_outside hout, rfl⟩, takesFault_raise s _⟩

/-- Settles O52: the store leaves `I`, so that the load reads each register where it was stored. -/
theorem loadUndoesStore : Obligations.LoadUndoesStore := by
  unfold Obligations.LoadUndoesStore
  intro k s t v hin h
  cases (exec_storeRegs_inside hin).symm.trans h
  refine ⟨_, exec_loadRegs_inside hin, fun j hj => ?_, fun j hj => ?_⟩
  · rw [State.getV_blockLoaded, if_pos hj]; exact State.read_stored_blockV hin hj
  · rw [State.getV_blockLoaded, if_neg (by omega)]; rfl

/-- Settles O53: the fetch reads the two bytes that the store put at `pc`. -/
theorem storedWordIsExecutedNext : Obligations.StoredWordIsExecutedNext := by
  unfold Obligations.StoredWordIsExecutedNext
  intro x j s t i hin hj h hpc hi
  cases (exec_storeRegs_inside hin).symm.trans h
  refine step_of_instr ?_ ?_
  · rw [hpc]; simp only [State.dataAddress] at hin ⊢; omega
  · rw [hpc, State.readWord_stored_blockV hin hj, hi]

/-! ### The canonical form -/

/-- Where no cell is listed, an address reads as at reset. -/
theorem Memory.read_of_not_listed {m : Memory} {a : Nat} (h : ∀ c ∈ m, c.1 ≠ a) : m.read a = Memory.resetByte a := by
  induction m with
  | nil => rfl
  | cons c rest ih =>
    rw [List.forall_mem_cons] at h
    exact (if_neg h.1).trans (ih h.2)

/-- A listed cell is what its address reads as, since no address is listed twice. -/
theorem Memory.read_of_listed {m : Memory} (hm : m.Pairwise (fun c d => c.1 < d.1)) {c : Host.Cell} (hc : c ∈ m) :
    m.read c.1 = c.2 := by
  induction hm with
  | nil => nomatch hc
  | @cons d rest hd _ ih =>
    cases hc with
    | head => exact if_pos rfl
    | tail _ hc => exact (if_neg (Nat.ne_of_lt (hd c hc))).trans (ih hc)

/-- A canonical memory lists exactly the bytes that do not read as at reset. -/
theorem Memory.mem_iff_read {m : Memory} (hm : m.wf = true) (c : Host.Cell) :
    c ∈ m ↔ m.read c.1 = c.2 ∧ c.2 ≠ Memory.resetByte c.1 := by
  obtain ⟨hrising, hcells⟩ := (Memory.wf_iff m).mp hm
  refine ⟨fun hc => ⟨Memory.read_of_listed hrising hc, (hcells c hc).2⟩, fun ⟨hread, hne⟩ => ?_⟩
  by_contra hc
  refine hne (hread.symm.trans (Memory.read_of_not_listed fun d hd ha => ?_))
  have hdc : d = c := Prod.ext ha (by rw [← Memory.read_of_listed hrising hd, ha, hread])
  exact hc (hdc ▸ hd)

/-- Settles O55: the two lists have the same cells, and both in rising order. -/
theorem canonicalMemoryIsDeterminedByItsBytes : Obligations.CanonicalMemoryIsDeterminedByItsBytes := by
  unfold Obligations.CanonicalMemoryIsDeterminedByItsBytes
  intro m n hm hn h
  have hcells (c : Host.Cell) : c ∈ m ↔ c ∈ n := by rw [Memory.mem_iff_read hm, Memory.mem_iff_read hn, h]
  have hirrefl : Std.Irrefl (fun c d : Host.Cell => c.1 < d.1) := ⟨fun c => Nat.lt_irrefl c.1⟩
  exact ((Memory.wf_iff m).mp hm).1.eq_of_mem_iff ((Memory.wf_iff n).mp hn).1 hcells

end Sys2Proof.Machine
end

section
/-! The draw instruction (44_display_input.md section 2). -/

namespace Sys2Proof.Machine

open Sys2Proof

/-! ### The sprite in memory -/

/-- The bit of the rows read from memory that lands on a pixel is the sprite's bit there. -/
theorem landsOn_readBytes (s : State) (x y : Reg) (n : Nibble) (a b : Nat) :
    landsOn (s.mem.readBytes (s.dataAddress 0) n.toNat) (s.anchorX x) (s.anchorY y) a b = spriteBit s x y n a b := by
  simp only [landsOn, spriteBit, State.anchorX, State.anchorY, Config.dispW, Config.dispH, Memory.length_readBytes]
  by_cases h : (s.getV y).toNat % 32 ≤ b ∧ b < (s.getV y).toNat % 32 + n.toNat
  · rw [List.getD_eq_getElem _ _ (by rw [Memory.length_readBytes]; omega), Memory.getElem_readBytes]
    rfl
  · simp only [h, and_false, decide_false, Bool.false_and]

/-- The sprite is the same in a state with the same memory, `I` and coordinates. -/
theorem spriteBit_congr {s t : State} {x y : Reg} (hmem : t.mem = s.mem) (hi : t.i = s.i)
    (hx : t.getV x = s.getV x) (hy : t.getV y = s.getV y) (n : Nibble) (a b : Nat) :
    spriteBit t x y n a b = spriteBit s x y n a b := by
  simp only [spriteBit, State.dataAddress, hmem, hi, hx, hy]

/-! ### One draw -/

theorem State.pixel_drawn (s : State) (x y : Reg) (n : Nibble) (a b : Nat) :
    (s.drawn x y n).1.pixel a b = (s.disp.pixel a b ^^ spriteBit s x y n a b) := by
  rw [← landsOn_readBytes]
  exact pixel_drawRows (s.disp, false) _ _ a b _

theorem State.collision_drawn (s : State) (x y : Reg) (n : Nibble) :
    (s.drawn x y n).2 = true ↔ ∃ a b, s.disp.pixel a b = true ∧ spriteBit s x y n a b = true := by
  simp only [← landsOn_readBytes]
  exact (collision_drawRows (s.disp, false) _ _ _).trans (by simp)

/-- The state after a `DRW` that draws: the display, then `VF` (R203). -/
def State.afterDraw (s : State) (x y : Reg) (n : Nibble) : State :=
  ({ s with disp := (s.drawn x y n).1 } : State).setV VF (flagByte (s.drawn x y n).2)

theorem exec_drw_inside {s : State} {n : Nibble} (h : n = 0x0#4 ∨ s.dataAddress 0 + n.toNat ≤ 0x1000) (x y : Reg) :
    exec (.drw x y n) s = .next (s.afterDraw x y n) :=
  exec_of_effect (i := .drw x y n) ⟨h.imp_left (congrArg BitVec.toNat), rfl⟩

theorem flagByte_eq_one_iff (c : Bool) : flagByte c = 0x01#8 ↔ c = true := by
  cases c <;> simp [flagByte]

/-- `VF` after a draw is 1 exactly on a collision. -/
theorem State.getV_VF_afterDraw (s : State) (x y : Reg) (n : Nibble) : (s.afterDraw x y n).getV VF = 0x01#8 ↔
    ∃ a b, s.disp.pixel a b = true ∧ spriteBit s x y n a b = true := by
  rw [State.afterDraw, State.getV_setV_same, flagByte_eq_one_iff, State.collision_drawn]

theorem State.changesOnly_afterDraw (s : State) (x y : Reg) (n : Nibble) :
    ChangesOnly (fun p => p = .reg VF ∨ ∃ a b, p = .pixel a b) s (s.afterDraw x y n) := by
  intro p hp
  cases p with
  | reg r => exact State.getV_setV_ne _ _ fun h => hp (.inl (by rw [h]))
  | pixel a b => exact absurd (.inr ⟨a, b, rfl⟩) hp
  | _ => rfl

/-- Settles O57: the rows of the sprite flip the pixels their bits land on, and `VF` is a flag byte. -/
theorem drawXorsAndReportsCollision : Obligations.DrawXorsAndReportsCollision := by
  unfold Obligations.DrawXorsAndReportsCollision
  intro x y n s h
  refine ⟨_, exec_drw_inside h x y, s.pixel_drawn x y n, s.getV_VF_afterDraw x y n, ?_, s.changesOnly_afterDraw x y n⟩
  rw [State.afterDraw, State.getV_setV_same]
  exact flagByte_zero_or_one _

/-- Settles O58: the fault of a `DRW` whose rows are not all there. -/
theorem drawOutOfRangeTakesFault : Obligations.DrawOutOfRangeTakesFault := by
  unfold Obligations.DrawOutOfRangeTakesFault
  intro x y n s hn hout
  have hrows : n.toNat ≠ 0 := fun h0 => hn (BitVec.eq_of_toNat_eq h0)
  exact ⟨_, exec_of_faults (i := .drw x y n) ⟨hrows, hout, rfl⟩, takesFault_raise s _⟩

/-! ### Two draws -/

/-- A draw leaves the sprite as it is, where neither coordinate is `VF`. -/
theorem State.spriteBit_afterDraw (s : State) {x y : Reg} (hx : x ≠ VF) (hy : y ≠ VF) (n : Nibble) (a b : Nat) :
    spriteBit (s.afterDraw x y n) x y n a b = spriteBit s x y n a b :=
  spriteBit_congr (s := s) (t := s.afterDraw x y n) rfl rfl (State.getV_setV_ne _ _ hx) (State.getV_setV_ne _ _ hy)
    n a b

/-- Settles O59: the second XOR with the same sprite undoes the first, and a set bit lands on a pixel that is set
between the two exactly where it landed on a clear one before. -/
theorem secondDrawUndoesFirst : Obligations.SecondDrawUndoesFirst := by
  unfold Obligations.SecondDrawUndoesFirst
  intro x y n s t hx hy hin h
  cases (exec_drw_inside hin x y).symm.trans h
  have hsprite := s.spriteBit_afterDraw hx hy n
  have hpixel : ∀ a b, (s.afterDraw x y n).disp.pixel a b = (s.disp.pixel a b ^^ spriteBit s x y n a b) :=
    s.pixel_drawn x y n
  refine ⟨_, exec_drw_inside (s := s.afterDraw x y n) hin x y, Display.ext_pixel fun a _ b _ => ?_, ?_⟩
  · calc ((s.afterDraw x y n).drawn x y n).1.pixel a b
      _ = ((s.disp.pixel a b ^^ spriteBit s x y n a b) ^^ spriteBit s x y n a b) := by
        rw [State.pixel_drawn, hpixel, hsprite]
      _ = s.disp.pixel a b := by rw [Bool.xor_assoc, Bool.xor_self, Bool.xor_false]
  · rw [State.getV_VF_afterDraw]
    refine exists_congr fun a => exists_congr fun b => ?_
    rw [hpixel, hsprite]
    cases s.disp.pixel a b <;> cases spriteBit s x y n a b <;> decide

end Sys2Proof.Machine
end
